-- ==== Sys2Proof/Word.lean ====
section
/-! DEFINITION. The word types of the block: a byte of SEG_BUF or THUMB, a 16-bit field, a 32-bit register word. -/

namespace Sys2Proof

/-- One byte of a segment content or of the thumbnail window (20_memory.md R54). -/
abbrev Byte := BitVec 8

/-- A 16-bit field: a sample value, threshold, dimension, density or version (10_state.md R21). -/
abbrev Half := BitVec 16

/-- A register as the host sees it, and a command word (10_state.md R21, 30_encoding.md R70). -/
abbrev Word := BitVec 32

end Sys2Proof
end

