-- ==== Sys2Proof/Machine/HostAction.lean ====
section
/-! DEFINITION. The host's actions and their encoding triple (30_encoding.md R82), as data. -/

namespace Sys2Proof.Machine

/-- One statement of a host program (30_encoding.md R82). `cmd MNEMONIC` is `wr CMD, w` (`HostAction.cmd` in
Decode.lean), not a form of its own. -/
inductive HostAction where
  /-- `wr NAME, v`: write the 32-bit value to the register at this index -/
  | wr (index : Byte) (value : Word)
  /-- `rd NAME`: read the register at this index -/
  | rd (index : Byte)
  /-- `rdb k`: read SEG_BUF[k] -/
  | rdb (offset : Nat)
  /-- `wrt a, b`: the host writes byte b to THUMB[a] -/
  | wrt (offset : Nat) (value : Byte)
  /-- `skipz NAME, k`: read the register; if it reads 0, skip the next k statements -/
  | skipz (index : Byte) (count : Nat)
  /-- `reset`: apply reset (70_reset_and_hazards.md R190) -/
  | reset
deriving DecidableEq, Repr

/-- The kind of an encoded action (30_encoding.md R82). -/
inductive ActionKind where
  | wr | rd | rdb | wrt | skipz | reset
deriving DecidableEq, Repr

/-- An encoded action: the triple (kind, index, value) of 30_encoding.md R82. -/
structure ActionTriple where
  kind : ActionKind
  index : Nat
  value : Nat
deriving DecidableEq, Repr

end Sys2Proof.Machine
end

