-- ==== Sys2Proof/Config.lean ====
section
/-! DEFINITION. The OPEN parameters of 00_scope.md R6 as plain data, and the two free values of the model. -/

namespace Sys2Proof

/-- `JFIF_THUMB_POLICY` (41_segments.md R136). -/
inductive ThumbPolicy where
  /-- The document's evident intent: error when a width is given and no buffer is supplied. -/
  | intent
  /-- The source's observed behaviour: error when a width is given and a buffer is supplied. -/
  | asObserved
deriving DecidableEq, Repr

/-- The OPEN parameters of 00_scope.md R6, as plain data (log entries 1 and 2). `maxNearTable` lists the points
where MAX_NEAR differs from its default; `Machine.maxNear` reads it. -/
structure Config where
  /-- MC_SOF -/
  mcSof : Byte
  /-- MC_APP0 -/
  mcApp0 : Byte
  /-- MC_LSE -/
  mcLse : Byte
  /-- MC_APP8 -/
  mcApp8 : Byte
  /-- MC_SOS -/
  mcSos : Byte
  /-- JFIF_THUMB_POLICY -/
  thumbPolicy : ThumbPolicy
  /-- MAX_NEAR where it is not the default: pairs (maximum sample value, maximum error) -/
  maxNearTable : List (Nat × Byte)
deriving DecidableEq, Repr

/-- FREE VALUE (20_memory.md R34, R58; log entry 3): what a host read of SEG_BUF returns at an offset the block
gives no value, as a function of the draw epoch and the offset. Nothing is known of it. -/
opaque Config.freeSegByte : Nat → Nat → Byte

/-- FREE VALUE (20_memory.md R57; log entry 6): the byte the host's thumbnail window holds at the launch, at an
offset no `wrt` action has written. Nothing is known of it. -/
opaque Config.thumbAtLaunch : Nat → Byte

end Sys2Proof
end

