-- ==== Sys2Proof/Machine/Params.lean ====
section
/-! DEFINITION. The fixed parameters and the defaults of the OPEN ones (00_scope.md R6), and MAX_NEAR. -/

namespace Sys2Proof.Machine

/-- STD_T1 (00_scope.md R6, 40_threshold.md R103). -/
def stdT1 : Nat := 3

/-- STD_T2 (00_scope.md R6, 40_threshold.md R103). -/
def stdT2 : Nat := 7

/-- STD_T3 (00_scope.md R6, 40_threshold.md R103). -/
def stdT3 : Nat := 21

/-- STD_RESET (00_scope.md R6, 40_threshold.md R103). -/
def stdReset : Nat := 64

/-- SEG_CAP: the capacity of SEG_BUF in bytes (00_scope.md R6). -/
def segCap : Nat := 195089

/-- THUMB_CAP: the size of the thumbnail window in bytes (00_scope.md R6). -/
def thumbCap : Nat := 195075

/-- The default of MAX_NEAR, `min(255, m div 2)` (40_threshold.md R102). -/
def defaultMaxNear (m : Nat) : Nat := min 255 (m / 2)

/-- `MAX_NEAR(m)` (40_threshold.md R102): the configured value where the table gives one, else the default. -/
def maxNear (c : Config) (m : Nat) : Nat :=
  match c.maxNearTable.lookup m with
  | some v => v.toNat
  | none => defaultMaxNear m

/-- The defaults of the OPEN parameters (00_scope.md R6, 30_encoding.md R75). The spec marks the marker codes and the
default MAX_NEAR as general knowledge (log entry 1). -/
def defaultConfig : Config where
  mcSof := 0xF7
  mcApp0 := 0xE0
  mcLse := 0xF8
  mcApp8 := 0xE8
  mcSos := 0xDA
  thumbPolicy := .intent
  maxNearTable := []

end Sys2Proof.Machine
end

