-- ==== Sys2Proof/Syntax.lean ====
section
/-! DEFINITION. The eight commands of 30_encoding.md R71. No command word carries an operand (R74). -/

namespace Sys2Proof

/-- The commands, one constructor for each row of the opcode table (30_encoding.md R71). -/
inductive Instr where
  /-- PC_DEFAULT, 0x00000001 (40_threshold.md R107) -/
  | pcDefault
  /-- PC_ISDEFAULT, 0x00000002 (40_threshold.md R108) -/
  | pcIsDefault
  /-- PC_ISVALID, 0x00000003 (40_threshold.md R110) -/
  | pcIsValid
  /-- SEG_SOF, 0x00000010 (41_segments.md R133) -/
  | segSof
  /-- SEG_JFIF, 0x00000011 (41_segments.md R134) -/
  | segJfif
  /-- SEG_LSE, 0x00000012 (41_segments.md R137) -/
  | segLse
  /-- SEG_APP8, 0x00000013 (41_segments.md R138) -/
  | segApp8
  /-- SEG_SOS, 0x00000014 (41_segments.md R139) -/
  | segSos
deriving DecidableEq, Repr

end Sys2Proof
end

