-- ==== Sys2Proof/WellFormed.lean ====
section
/-! DEFINITION. What a command, a host action and a configuration must satisfy to be legal. -/

namespace Sys2Proof

/-- A command carries no operand (30_encoding.md R74), so each of the eight is well formed. -/
def Instr.wellFormed : Instr → Bool
  | .pcDefault => true
  | .pcIsDefault => true
  | .pcIsValid => true
  | .segSof => true
  | .segJfif => true
  | .segLse => true
  | .segApp8 => true
  | .segSos => true

/-- A host action names only offsets that exist (20_memory.md R50, R58): SEG_BUF below SEG_CAP, THUMB below
THUMB_CAP. An ill-formed `wrt` still runs (60_exceptions.md R172; log entry 7). Every register index exists, the reserved ones too (10_state.md R22 (d)). -/
def Machine.HostAction.wellFormed : Machine.HostAction → Bool
  | .wr _ _ => true
  | .rd _ => true
  | .rdb k => decide (k < Machine.segCap)
  | .wrt a _ => decide (a < Machine.thumbCap)
  | .skipz _ _ => true
  | .reset => true

/-- The constraint of 40_threshold.md R102 on MAX_NEAR: `MAX_NEAR(m) <= m - 1` for every m >= 1. The default meets
it, so the table's entries are what has to be checked. -/
def Config.legal (c : Config) : Bool :=
  c.maxNearTable.all fun e => decide (e.2.toNat + 1 ≤ e.1)

end Sys2Proof
end

