-- ==== Sys2Proof/Decode.lean ====
section
/-! DEFINITION. The command-word decoder and encoder (30_encoding.md R70 to R73) and the host-action triples (R82). -/

namespace Sys2Proof

/-- Why a command word selects no operation (30_encoding.md R72). -/
inductive DecodeError where
  /-- RSV = w[31:8] is not 0 -/
  | reservedBitsSet (rsv : BitVec 24)
  /-- OP = w[7:0] is none of the eight opcodes -/
  | illegalOpcode (op : Byte)
deriving DecidableEq, Repr

/-- A decoded command word: an operation, or the reason there is none (30_encoding.md R73). -/
inductive Decoded where
  | instr (i : Instr)
  | illegal (e : DecodeError)
deriving DecidableEq, Repr

/-- OP, the field [7:0] of a command word (30_encoding.md R70). -/
def opField (w : Word) : Byte := w.extractLsb' 0 8

/-- RSV, the field [31:8] of a command word (30_encoding.md R70). -/
def rsvField (w : Word) : BitVec 24 := w.extractLsb' 8 24

/-- The operation an OP value selects (30_encoding.md R71). -/
def instrOfOpcode (op : Byte) : Option Instr :=
  if op = 0x01 then some .pcDefault
  else if op = 0x02 then some .pcIsDefault
  else if op = 0x03 then some .pcIsValid
  else if op = 0x10 then some .segSof
  else if op = 0x11 then some .segJfif
  else if op = 0x12 then some .segLse
  else if op = 0x13 then some .segApp8
  else if op = 0x14 then some .segSos
  else none

/-- The decoder, total on all 2^32 words (30_encoding.md R70, R72, R73). -/
def decode (w : Word) : Decoded :=
  if rsvField w ≠ 0 then .illegal (.reservedBitsSet (rsvField w))
  else
    match instrOfOpcode (opField w) with
    | some i => .instr i
    | none => .illegal (.illegalOpcode (opField w))

/-- The operation a word selects, if any. -/
def Decoded.toOption : Decoded → Option Instr
  | .instr i => some i
  | .illegal _ => none

/-- The OP value of a command (30_encoding.md R71). -/
def opcode : Instr → Byte
  | .pcDefault => 0x01
  | .pcIsDefault => 0x02
  | .pcIsValid => 0x03
  | .segSof => 0x10
  | .segJfif => 0x11
  | .segLse => 0x12
  | .segApp8 => 0x13
  | .segSos => 0x14

/-- The command word of a command: OP in [7:0], RSV = 0 (30_encoding.md R70, R71). -/
def encode (i : Instr) : Word := (0 : BitVec 24) ++ opcode i

/-- The instruction the decoder reads from the bits of an opcode-table row. A command word is one 32-bit value
without byte order (20_memory.md R52); bits above `nbits` are 0, and a number of more than 32 bits is no command
word (log entry 13). -/
def decodeTableWord (nbits w : Nat) : Option Instr :=
  let v := w % 2 ^ nbits
  if v < 2 ^ 32 then (decode (BitVec.ofNat 32 v)).toOption else none

namespace Machine

/-- The index of the register CMD (10_state.md R21). -/
def cmdIndex : Byte := 0x00

/-- The pseudo-instruction `cmd MNEMONIC`, which expands to `wr CMD, w` (30_encoding.md R82). -/
def HostAction.cmd (i : Instr) : HostAction := .wr cmdIndex (encode i)

/-- The encoding triple of a host action (30_encoding.md R82). -/
def encodeAction : HostAction → ActionTriple
  | .wr i v => ⟨.wr, i.toNat, v.toNat⟩
  | .rd i => ⟨.rd, i.toNat, 0⟩
  | .rdb k => ⟨.rdb, k, 0⟩
  | .wrt a b => ⟨.wrt, a, b.toNat⟩
  | .skipz i k => ⟨.skipz, i.toNat, k⟩
  | .reset => ⟨.reset, 0, 0⟩

/-- The host action a triple encodes (30_encoding.md R82); none where a part is outside its range or a part the
rule gives as 0 is not 0 (log entry 14). -/
def decodeAction (t : ActionTriple) : Option HostAction :=
  match t.kind with
  | .wr =>
    if t.index < 2 ^ 8 ∧ t.value < 2 ^ 32 then some (.wr (BitVec.ofNat 8 t.index) (BitVec.ofNat 32 t.value)) else none
  | .rd => if t.index < 2 ^ 8 ∧ t.value = 0 then some (.rd (BitVec.ofNat 8 t.index)) else none
  | .rdb => if t.value = 0 then some (.rdb t.index) else none
  | .wrt => if t.value < 2 ^ 8 then some (.wrt t.index (BitVec.ofNat 8 t.value)) else none
  | .skipz => if t.index < 2 ^ 8 then some (.skipz (BitVec.ofNat 8 t.index) t.value) else none
  | .reset => if t.index = 0 ∧ t.value = 0 then some .reset else none

end Machine

end Sys2Proof
end

