-- ==== Sys2Proof/Machine/State.lean ====
section
/-! DEFINITION. The state of the block and of the host that drives it, the reasons a step can stop, and reset. -/

namespace Sys2Proof.Machine

/-- A byte space (SEG_BUF or THUMB) as offset and byte pairs, offsets strictly rising (`Memory.wf`). An offset not
listed has no value of its own. -/
abbrev Memory := List Host.Cell

/-- The canonical form of a byte space: the listed offsets rise strictly. An unlisted offset has no value, so no
entry can repeat one (log entry 5). -/
abbrev Memory.wf (m : Memory) : Prop := m.Pairwise fun x y => x.1 < y.1

/-- The register file of 10_state.md R21: every register by its field, at the field's width. STATUS is its two
fields CODE and FAULT; its other bits are hardwired 0 (R24). -/
structure Regs where
  cmd : BitVec 32
  code : BitVec 3
  fault : BitVec 1
  msv : BitVec 16
  near : BitVec 8
  mcv : BitVec 16
  pMaxval : BitVec 16
  pT1 : BitVec 16
  pT2 : BitVec 16
  pT3 : BitVec 16
  pReset : BitVec 16
  fWidth : BitVec 16
  fHeight : BitVec 16
  fBps : BitVec 8
  fNf : BitVec 8
  jVersion : BitVec 16
  jUnits : BitVec 8
  jXdens : BitVec 16
  jYdens : BitVec 16
  jXthumb : BitVec 8
  jYthumb : BitVec 8
  jTpres : BitVec 1
  xform : BitVec 8
  sNs : BitVec 8
  sIlv : BitVec 8
  sCidx : BitVec 16
  oMaxval : BitVec 16
  oT1 : BitVec 16
  oT2 : BitVec 16
  oT3 : BitVec 16
  oReset : BitVec 16
  result : BitVec 1
  segCode : BitVec 8
  segLen : BitVec 18
deriving DecidableEq, Repr

/-- The register names of 10_state.md R21. -/
inductive Reg where
  | cmd | status | msv | near | mcv | pMaxval | pT1 | pT2 | pT3 | pReset
  | fWidth | fHeight | fBps | fNf | jVersion | jUnits | jXdens | jYdens | jXthumb | jYthumb | jTpres
  | xform | sNs | sIlv | sCidx | oMaxval | oT1 | oT2 | oT3 | oReset | result | segCode | segLen
deriving DecidableEq, Repr

/-- The access column of 10_state.md R21. -/
inductive Access where
  /-- a host write stores the field -/
  | rw
  /-- a host write stores the word and performs the command (CMD) -/
  | rwExecutes
  /-- a host write is ignored -/
  | ro
deriving DecidableEq, Repr

/-- The four outcomes of a command (60_exceptions.md R160). -/
inductive CommandOutcome where
  | ok
  | invalidParameters
  | contractViolation
  | illegalCommand
deriving DecidableEq, Repr

/-- What the block returned to one host read: a register value, or a byte of SEG_BUF. -/
inductive Observation where
  | register (index : Byte) (value : Word)
  | segByte (offset : Nat) (value : Byte)
deriving DecidableEq, Repr

/-- The whole machine: the block's registers and byte spaces, the parameters of this instance, and the host's
program with its index. -/
structure State where
  /-- the register file (10_state.md R21) -/
  regs : Regs
  /-- SEG_BUF (10_state.md R34): the bytes segment commands have stored; a host read goes through `segByte` -/
  segBuf : Memory
  /-- THUMB (20_memory.md R57): the bytes the host has written with `wrt` -/
  thumb : Memory
  /-- the OPEN parameters of this instance (00_scope.md R6); no step changes them -/
  config : Config
  /-- the host's program (30_encoding.md R82) -/
  program : List HostAction
  /-- the host-side index of the next statement (10_state.md R35) -/
  hostIndex : Nat
  /-- what the host's reads returned, newest first -/
  observed : List Observation
  /-- the counter that picks the free draws of SEG_BUF; every host write and reset advances it (log entry 4) -/
  drawEpoch : Nat
deriving DecidableEq, Repr

/-- Why the machine stops with a fault: for no reason. The block has no traps (60_exceptions.md R160); a violation and
an illegal word are recorded in STATUS and the machine goes on (R161, R170), and no access but the one of
`Refusal.segBufOffsetOutOfRange` is refused (R172). -/
inductive Fault where
deriving DecidableEq, Repr

/-- Why a step has no meaning. -/
inductive Refusal where
  /-- Raised by an arm of exec whose instruction has no meaning yet. Safe: no claim holds of such a step. -/
  | notModelled (mnemonic : String)
  /-- Raised by `rdb k` with k at or above SEG_CAP: 20_memory.md R58 says a model refuses it as a host error, with
  no step. Safe. -/
  | segBufOffsetOutOfRange (offset : Nat)
deriving DecidableEq, Repr

/-- Every register at its reset value, 0 (70_reset_and_hazards.md R190, 10_state.md R21). -/
def Regs.reset : Regs where
  cmd := 0
  code := 0
  fault := 0
  msv := 0
  near := 0
  mcv := 0
  pMaxval := 0
  pT1 := 0
  pT2 := 0
  pT3 := 0
  pReset := 0
  fWidth := 0
  fHeight := 0
  fBps := 0
  fNf := 0
  jVersion := 0
  jUnits := 0
  jXdens := 0
  jYdens := 0
  jXthumb := 0
  jYthumb := 0
  jTpres := 0
  xform := 0
  sNs := 0
  sIlv := 0
  sCidx := 0
  oMaxval := 0
  oT1 := 0
  oT2 := 0
  oT3 := 0
  oReset := 0
  result := 0
  segCode := 0
  segLen := 0

/-- The machine right after reset (70_reset_and_hazards.md R190): every register 0, no byte of SEG_BUF given a
value, the parameters at the defaults of R6, no host program loaded (log entries 1, 4, 6, 8, 9). -/
def State.reset : State where
  regs := Regs.reset
  segBuf := []
  thumb := []
  config := defaultConfig
  program := []
  hostIndex := 0
  observed := []
  drawEpoch := 0

end Sys2Proof.Machine
end

