-- ==== Sys2Proof/Machine/Flags.lean ====
section
/-! DEFINITION. STATUS and the RESULT flag: outcome codes, the sticky fault bit, the status word, a Boolean as a bit. -/

namespace Sys2Proof.Machine

/-- The STATUS.CODE value of an outcome (10_state.md R25). -/
def CommandOutcome.code : CommandOutcome → BitVec 3
  | .ok => 0
  | .invalidParameters => 1
  | .contractViolation => 2
  | .illegalCommand => 3

/-- Whether an outcome sets STATUS.FAULT (10_state.md R25, R26). -/
def CommandOutcome.setsFault : CommandOutcome → Bool
  | .ok => false
  | .invalidParameters => false
  | .contractViolation => true
  | .illegalCommand => true

/-- STATUS.FAULT after an outcome: sticky, so an outcome that does not set it leaves it (10_state.md R26). -/
def faultAfter (o : CommandOutcome) (fault : BitVec 1) : BitVec 1 :=
  if o.setsFault then 1 else fault

/-- STATUS as the host reads it: CODE in [2:0], FAULT in [8], every other bit 0 (10_state.md R24). -/
def statusWord (code : BitVec 3) (fault : BitVec 1) : Word :=
  code.setWidth 32 ||| fault.setWidth 32 <<< 8

/-- A Boolean as a one-bit field: 1 for true, 0 for false (10_state.md R32). -/
def boolBit (b : Bool) : BitVec 1 := if b then 1 else 0

end Sys2Proof.Machine
end

