-- ==== Sys2Proof/Machine/Ops.lean ====
section
/-! DEFINITION. The shared operations: byte spaces, register access by index, emit, done, raise, reset, host reads. -/

namespace Sys2Proof.Machine

/-! ### Byte spaces -/

/-- The byte listed at an offset, none where nothing is listed. -/
def Memory.get? : Memory → Nat → Option Byte
  | [], _ => none
  | (a, b) :: m, k => if a = k then some b else Memory.get? m k

/-- `MemWrite(space, k, 1, v)` (00_scope.md R10): one byte stored, the canonical form kept. -/
def Memory.write : Memory → Nat → Byte → Memory
  | [], k, v => [(k, v)]
  | (a, b) :: m, k, v =>
    if k < a then (k, v) :: (a, b) :: m
    else if k = a then (k, v) :: m
    else (a, b) :: Memory.write m k v

/-- The cells of a byte sequence laid out from an offset upwards. -/
def Memory.cells : Nat → List Byte → Memory
  | _, [] => []
  | a, b :: bs => (a, b) :: Memory.cells (a + 1) bs

/-- `MemWrite(space, k, 1, s[k])` for every k < len(s) (00_scope.md R10, `emit`), as one operation. -/
def Memory.store (m : Memory) (s : List Byte) : Memory :=
  Memory.cells 0 s ++ m.filter fun c => decide (s.length ≤ c.1)

/-! ### The register file by name and by index (10_state.md R21, R22) -/

/-- The index of a register (10_state.md R21). -/
def Reg.index : Reg → Byte
  | .cmd => 0x00
  | .status => 0x01
  | .msv => 0x02
  | .near => 0x03
  | .mcv => 0x04
  | .pMaxval => 0x05
  | .pT1 => 0x06
  | .pT2 => 0x07
  | .pT3 => 0x08
  | .pReset => 0x09
  | .fWidth => 0x0A
  | .fHeight => 0x0B
  | .fBps => 0x0C
  | .fNf => 0x0D
  | .jVersion => 0x0E
  | .jUnits => 0x0F
  | .jXdens => 0x10
  | .jYdens => 0x11
  | .jXthumb => 0x12
  | .jYthumb => 0x13
  | .jTpres => 0x14
  | .xform => 0x15
  | .sNs => 0x16
  | .sIlv => 0x17
  | .sCidx => 0x18
  | .oMaxval => 0x19
  | .oT1 => 0x1A
  | .oT2 => 0x1B
  | .oT3 => 0x1C
  | .oReset => 0x1D
  | .result => 0x1E
  | .segCode => 0x1F
  | .segLen => 0x20

/-- The register names in the order of 10_state.md R21. -/
def Reg.all : List Reg :=
  [.cmd, .status, .msv, .near, .mcv, .pMaxval, .pT1, .pT2, .pT3, .pReset,
   .fWidth, .fHeight, .fBps, .fNf, .jVersion, .jUnits, .jXdens, .jYdens, .jXthumb, .jYthumb, .jTpres] ++
  [.xform, .sNs, .sIlv, .sCidx, .oMaxval, .oT1, .oT2, .oT3, .oReset, .result, .segCode, .segLen]

/-- The register at an index; none at the reserved indices 0x21 to 0xFF (10_state.md R21). -/
def Reg.ofIndex (idx : Byte) : Option Reg := Reg.all.find? fun r => r.index = idx

/-- The access column of 10_state.md R21. -/
def Reg.access : Reg → Access
  | .cmd => .rwExecutes
  | .status => .ro
  | .oMaxval => .ro
  | .oT1 => .ro
  | .oT2 => .ro
  | .oT3 => .ro
  | .oReset => .ro
  | .result => .ro
  | .segCode => .ro
  | .segLen => .ro
  | .msv => .rw
  | .near => .rw
  | .mcv => .rw
  | .pMaxval => .rw
  | .pT1 => .rw
  | .pT2 => .rw
  | .pT3 => .rw
  | .pReset => .rw
  | .fWidth => .rw
  | .fHeight => .rw
  | .fBps => .rw
  | .fNf => .rw
  | .jVersion => .rw
  | .jUnits => .rw
  | .jXdens => .rw
  | .jYdens => .rw
  | .jXthumb => .rw
  | .jYthumb => .rw
  | .jTpres => .rw
  | .xform => .rw
  | .sNs => .rw
  | .sIlv => .rw
  | .sCidx => .rw

/-- The width in bits of the field of a register, all of them starting at bit 0 (10_state.md R21). STATUS is given
as bits [8:0], which hold its two fields. -/
def Reg.width : Reg → Nat
  | .cmd => 32
  | .status => 9
  | .msv => 16
  | .near => 8
  | .mcv => 16
  | .pMaxval => 16
  | .pT1 => 16
  | .pT2 => 16
  | .pT3 => 16
  | .pReset => 16
  | .fWidth => 16
  | .fHeight => 16
  | .fBps => 8
  | .fNf => 8
  | .jVersion => 16
  | .jUnits => 8
  | .jXdens => 16
  | .jYdens => 16
  | .jXthumb => 8
  | .jYthumb => 8
  | .jTpres => 1
  | .xform => 8
  | .sNs => 8
  | .sIlv => 8
  | .sCidx => 16
  | .oMaxval => 16
  | .oT1 => 16
  | .oT2 => 16
  | .oT3 => 16
  | .oReset => 16
  | .result => 1
  | .segCode => 8
  | .segLen => 18

/-- What a host read of a register returns: its field zero-extended to 32 bits (10_state.md R22 (b)). -/
def Regs.read (r : Regs) : Reg → Word
  | .cmd => r.cmd
  | .status => statusWord r.code r.fault
  | .msv => r.msv.setWidth 32
  | .near => r.near.setWidth 32
  | .mcv => r.mcv.setWidth 32
  | .pMaxval => r.pMaxval.setWidth 32
  | .pT1 => r.pT1.setWidth 32
  | .pT2 => r.pT2.setWidth 32
  | .pT3 => r.pT3.setWidth 32
  | .pReset => r.pReset.setWidth 32
  | .fWidth => r.fWidth.setWidth 32
  | .fHeight => r.fHeight.setWidth 32
  | .fBps => r.fBps.setWidth 32
  | .fNf => r.fNf.setWidth 32
  | .jVersion => r.jVersion.setWidth 32
  | .jUnits => r.jUnits.setWidth 32
  | .jXdens => r.jXdens.setWidth 32
  | .jYdens => r.jYdens.setWidth 32
  | .jXthumb => r.jXthumb.setWidth 32
  | .jYthumb => r.jYthumb.setWidth 32
  | .jTpres => r.jTpres.setWidth 32
  | .xform => r.xform.setWidth 32
  | .sNs => r.sNs.setWidth 32
  | .sIlv => r.sIlv.setWidth 32
  | .sCidx => r.sCidx.setWidth 32
  | .oMaxval => r.oMaxval.setWidth 32
  | .oT1 => r.oT1.setWidth 32
  | .oT2 => r.oT2.setWidth 32
  | .oT3 => r.oT3.setWidth 32
  | .oReset => r.oReset.setWidth 32
  | .result => r.result.setWidth 32
  | .segCode => r.segCode.setWidth 32
  | .segLen => r.segLen.setWidth 32

/-- What a host write stores: the low bits of the value into the field of an RW register, CMD's whole word, nothing
into an RO register (10_state.md R22 (a), (c), R23). The command a CMD write performs is not part of it. -/
def Regs.write (r : Regs) (reg : Reg) (v : Word) : Regs :=
  match reg with
  | .cmd => { r with cmd := v }
  | .status => r
  | .msv => { r with msv := v.setWidth 16 }
  | .near => { r with near := v.setWidth 8 }
  | .mcv => { r with mcv := v.setWidth 16 }
  | .pMaxval => { r with pMaxval := v.setWidth 16 }
  | .pT1 => { r with pT1 := v.setWidth 16 }
  | .pT2 => { r with pT2 := v.setWidth 16 }
  | .pT3 => { r with pT3 := v.setWidth 16 }
  | .pReset => { r with pReset := v.setWidth 16 }
  | .fWidth => { r with fWidth := v.setWidth 16 }
  | .fHeight => { r with fHeight := v.setWidth 16 }
  | .fBps => { r with fBps := v.setWidth 8 }
  | .fNf => { r with fNf := v.setWidth 8 }
  | .jVersion => { r with jVersion := v.setWidth 16 }
  | .jUnits => { r with jUnits := v.setWidth 8 }
  | .jXdens => { r with jXdens := v.setWidth 16 }
  | .jYdens => { r with jYdens := v.setWidth 16 }
  | .jXthumb => { r with jXthumb := v.setWidth 8 }
  | .jYthumb => { r with jYthumb := v.setWidth 8 }
  | .jTpres => { r with jTpres := v.setWidth 1 }
  | .xform => { r with xform := v.setWidth 8 }
  | .sNs => { r with sNs := v.setWidth 8 }
  | .sIlv => { r with sIlv := v.setWidth 8 }
  | .sCidx => { r with sCidx := v.setWidth 16 }
  | .oMaxval => r
  | .oT1 => r
  | .oT2 => r
  | .oT3 => r
  | .oReset => r
  | .result => r
  | .segCode => r
  | .segLen => r

/-- A host read of a register by index; a reserved index reads 0 (10_state.md R22 (b), (d)). -/
def readIndex (r : Regs) (idx : Byte) : Word :=
  match Reg.ofIndex idx with
  | some reg => r.read reg
  | none => 0

/-- What a host write stores by index; a write to a reserved index is ignored (10_state.md R22 (d)). -/
def writeIndex (r : Regs) (idx : Byte) (v : Word) : Regs :=
  match Reg.ofIndex idx with
  | some reg => r.write reg v
  | none => r

/-! ### How a command ends (00_scope.md R10, 60_exceptions.md R161) -/

/-- Record an outcome in STATUS, the last effect of every command (10_state.md R25, R26). -/
def finish (o : CommandOutcome) (s : State) : State :=
  { s with regs := { s.regs with code := o.code, fault := faultAfter o s.regs.fault } }

/-- `done()`: the command ends with CODE = 0 (00_scope.md R10). -/
def done (s : State) : Host.Outcome State Fault Refusal := .next (finish .ok s)

/-- `raise E(...)`: the command ends at once and writes only STATUS (60_exceptions.md R161). This is how the block
takes an exception: it has no vector, no mode and no saved pc, and the next command runs (R169, R170). -/
def raise (o : CommandOutcome) (s : State) : Host.Outcome State Fault Refusal := .next (finish o s)

/-- `emit(code, s)`: SEG_CODE, SEG_LEN and the content bytes of SEG_BUF (00_scope.md R10). -/
def emit (code : Byte) (content : List Byte) (s : State) : State :=
  { s with
    regs := { s.regs with segCode := code, segLen := BitVec.ofNat 18 content.length }
    segBuf := s.segBuf.store content }

/-- Write RESULT (10_state.md R32). -/
def setResult (b : Bool) (s : State) : State := { s with regs := { s.regs with result := boolBit b } }

/-- Write O_MAXVAL, O_T1, O_T2, O_T3 and O_RESET (10_state.md R31). -/
def setDefaults (v t1 t2 t3 r : Half) (s : State) : State :=
  { s with regs := { s.regs with oMaxval := v, oT1 := t1, oT2 := t2, oT3 := t3, oReset := r } }

/-! ### Reads of the byte spaces -/

/-- `MemRead(THUMB, a, 1)` (00_scope.md R10, 20_memory.md R57): the byte the host wrote, or the free byte the window
held at the launch. -/
def thumbByte (m : Memory) (a : Nat) : Byte := (m.get? a).getD (Config.thumbAtLaunch a)

/-- `THUMB[a] <- b` by the host (20_memory.md R57). An offset at or above THUMB_CAP is no THUMB offset (R50), so the
write lands in nothing the block can read; it is not refused (60_exceptions.md R172; log entry 7). -/
def storeThumb (a : Nat) (b : Byte) (s : State) : State :=
  if a < thumbCap then { s with thumb := s.thumb.write a b } else s

/-- What a host read of SEG_BUF returns at an offset below SEG_CAP (20_memory.md R58): a content byte below SEG_LEN,
a free draw of the current epoch above it (log entry 3). -/
def segByte (s : State) (k : Nat) : Byte :=
  if k < s.regs.segLen.toNat then (s.segBuf.get? k).getD (Config.freeSegByte s.drawEpoch k)
  else Config.freeSegByte s.drawEpoch k

/-! ### Host bookkeeping and reset -/

/-- The host goes on by `n` statements (10_state.md R35). -/
def advanceHost (n : Nat) (s : State) : State := { s with hostIndex := s.hostIndex + n }

/-- What a host read returned is recorded (log entry 9). -/
def observe (o : Observation) (s : State) : State := { s with observed := o :: s.observed }

/-- A host write or reset opens a new draw epoch (20_memory.md R55, log entry 4). -/
def newEpoch (s : State) : State := { s with drawEpoch := s.drawEpoch + 1 }

/-- What a host write to a register stores (10_state.md R22). -/
def storeIndex (idx : Byte) (v : Word) (s : State) : State := { s with regs := writeIndex s.regs idx v }

/-- Reset (70_reset_and_hazards.md R190): every register to 0, every byte of SEG_BUF unspecified, THUMB kept. It is
the only operation that clears STATUS.FAULT (10_state.md R26). -/
def resetBlock (s : State) : State := { s with regs := Regs.reset, segBuf := [] }

end Sys2Proof.Machine
end

