-- ==== Sys2Proof/Machine/Operands.lean ====
section
/-! DEFINITION. Operand assembly (30_encoding.md R74): the registers a command reads, as the integers it computes with. -/

namespace Sys2Proof.Machine

/-- `hi8(v)` = v[15:8] (00_scope.md R9). -/
def hi8 (v : Half) : Byte := v.extractLsb' 8 8

/-- `lo8(v)` = v[7:0] (00_scope.md R9). -/
def lo8 (v : Half) : Byte := v.extractLsb' 0 8

/-- A preset coding parameter set (40_threshold.md R100), its fields as the integers the rules compute with
(log entry 15). -/
structure PresetParams where
  maxval : Nat
  t1 : Nat
  t2 : Nat
  t3 : Nat
  reset : Nat
deriving DecidableEq, Repr

/-- m = x[MSV] (30_encoding.md R74). -/
abbrev msvOperand (r : Regs) : Nat := r.msv.toNat

/-- n = x[NEAR] (30_encoding.md R74). -/
abbrev nearOperand (r : Regs) : Nat := r.near.toNat

/-- mcv = x[MCV] (30_encoding.md R74). -/
abbrev mcvOperand (r : Regs) : Nat := r.mcv.toNat

/-- The candidate set c = (x[P_MAXVAL], x[P_T1], x[P_T2], x[P_T3], x[P_RESET]) (10_state.md R27). -/
def candidate (r : Regs) : PresetParams :=
  ⟨r.pMaxval.toNat, r.pT1.toNat, r.pT2.toNat, r.pT3.toNat, r.pReset.toNat⟩

/-- J_TPRES as a Boolean: a thumbnail buffer is supplied (10_state.md R29). -/
def thumbSupplied (r : Regs) : Bool := r.jTpres == 1

/-- c = sext(x[S_CIDX]), in [-32768, 32767] (10_state.md R30). -/
abbrev scanIndex (r : Regs) : Int := r.sCidx.toInt

end Sys2Proof.Machine
end

