-- ==== Sys2Proof/Machine/Segments.lean ====
section
/-! DEFINITION. The marker segment family (41_segments.md): the append primitives, the five contents and the five
SEG commands. -/

namespace Sys2Proof.Machine

/-- `append8(s, v)` (41_segments.md R130). -/
def append8 (s : List Byte) (v : Byte) : List Byte := s ++ [v]

/-- `append16be(s, v)`: most-significant byte first (41_segments.md R130, 20_memory.md R51). -/
def append16be (s : List Byte) (v : Half) : List Byte := s ++ [hi8 v, lo8 v]

/-- ascii("JFIF\0") (30_encoding.md R77). -/
def jfifIdentifier : List Byte := [0x4A, 0x46, 0x49, 0x46, 0x00]

/-- ascii("mrfx") (30_encoding.md R79). -/
def mrfxSignature : List Byte := [0x6D, 0x72, 0x66, 0x78]

/-- The content of SEG_SOF (41_segments.md R133, 30_encoding.md R76): precision, height, width, Nf, then three bytes
for each component id 1 .. Nf. -/
def sofContent (r : Regs) : List Byte :=
  let s := append8 [] r.fBps
  let s := append16be s r.fHeight
  let s := append16be s r.fWidth
  let s := append8 s r.fNf
  (List.range' 1 r.fNf.toNat).foldl
    (fun s i => append8 (append8 (append8 s (BitVec.ofNat 8 i)) 0x11) 0x00) s

/-- The precondition of SEG_SOF fails (41_segments.md R133). -/
def sofViolates (r : Regs) : Bool :=
  r.fBps == 0 || r.fNf == 0 || decide (254 < r.fNf.toNat)

/-- SEG_SOF (41_segments.md R133). -/
def execSegSof (s : State) : Host.Outcome State Fault Refusal :=
  if sofViolates s.regs then raise .contractViolation s
  else done (emit s.config.mcSof (sofContent s.regs) s)

/-- What the thumbnail check answers: how many bytes to copy, or what to raise (41_segments.md R136). -/
inductive ThumbCheck where
  | copy (length : Nat)
  | raises (o : CommandOutcome)
deriving DecidableEq, Repr

/-- `ThumbLen(tw, th, tp)` under a policy (41_segments.md R135, R136). -/
def thumbLen (policy : ThumbPolicy) (tw th : Nat) (tp : Bool) : ThumbCheck :=
  if tw = 0 then .copy 0
  else
    match policy, tp with
    | .intent, false => .raises .invalidParameters
    | .intent, true => .copy (3 * tw * th)
    | .asObserved, false => .raises .contractViolation
    | .asObserved, true => .raises .invalidParameters

/-- THUMB[0 .. t - 1] in order (41_segments.md R135). -/
def thumbBytes (m : Memory) (t : Nat) : List Byte := (List.range t).map (thumbByte m)

/-- The content of SEG_JFIF with t thumbnail bytes (41_segments.md R134, 30_encoding.md R77). -/
def jfifContent (r : Regs) (thumb : Memory) (t : Nat) : List Byte :=
  let s := append16be jfifIdentifier r.jVersion
  let s := append8 s r.jUnits
  let s := append16be s r.jXdens
  let s := append16be s r.jYdens
  let s := append8 s r.jXthumb
  let s := append8 s r.jYthumb
  s ++ thumbBytes thumb t

/-- The precondition of SEG_JFIF fails (41_segments.md R134). -/
def jfifViolates (r : Regs) : Bool :=
  decide (2 < r.jUnits.toNat) || r.jXdens == 0 || r.jYdens == 0

/-- SEG_JFIF (41_segments.md R134): the precondition comes before the thumbnail check (60_exceptions.md R165). -/
def execSegJfif (s : State) : Host.Outcome State Fault Refusal :=
  if jfifViolates s.regs then raise .contractViolation s
  else
    match thumbLen s.config.thumbPolicy s.regs.jXthumb.toNat s.regs.jYthumb.toNat (thumbSupplied s.regs) with
    | .raises o => raise o s
    | .copy t => done (emit s.config.mcApp0 (jfifContent s.regs s.thumb t) s)

/-- The content of SEG_LSE (41_segments.md R137, 30_encoding.md R78). -/
def lseContent (r : Regs) : List Byte :=
  let s := append8 [] 0x01
  let s := append16be s r.pMaxval
  let s := append16be s r.pT1
  let s := append16be s r.pT2
  let s := append16be s r.pT3
  append16be s r.pReset

/-- SEG_LSE (41_segments.md R137): no precondition, the set is written as it stands. -/
def execSegLse (s : State) : Host.Outcome State Fault Refusal :=
  done (emit s.config.mcLse (lseContent s.regs) s)

/-- The content of SEG_APP8 (41_segments.md R138, 30_encoding.md R79). -/
def app8Content (r : Regs) : List Byte := append8 mrfxSignature r.xform

/-- SEG_APP8 (41_segments.md R138). -/
def execSegApp8 (s : State) : Host.Outcome State Fault Refusal :=
  done (emit s.config.mcApp8 (app8Content s.regs) s)

/-- The component part of SEG_SOS (41_segments.md R139, 30_encoding.md R80): all components when c < 0, else the one
component c. -/
def sosComponents (r : Regs) : List Byte :=
  if scanIndex r < 0 then
    (List.range r.sNs.toNat).foldl (fun s i => append8 (append8 s (BitVec.ofNat 8 (i + 1))) 0x00) (append8 [] r.sNs)
  else
    append8 (append8 (append8 [] 0x01) (lo8 r.sCidx)) 0x00

/-- The content of SEG_SOS (41_segments.md R139, 30_encoding.md R80). -/
def sosContent (r : Regs) : List Byte :=
  let s := append8 (sosComponents r) r.near
  let s := append8 s r.sIlv
  append8 s 0x00

/-- The precondition of SEG_SOS fails (41_segments.md R139). -/
def sosViolates (r : Regs) : Bool := decide (255 < scanIndex r)

/-- SEG_SOS (41_segments.md R139). -/
def execSegSos (s : State) : Host.Outcome State Fault Refusal :=
  if sosViolates s.regs then raise .contractViolation s
  else done (emit s.config.mcSos (sosContent s.regs) s)

end Sys2Proof.Machine
end

