-- ==== Sys2Proof/Machine/Threshold.lean ====
section
/-! DEFINITION. The preset coding parameter family (40_threshold.md): clamp, DefaultPC, IsDefault, IsValid and the
three PC commands. -/

namespace Sys2Proof.Machine

/-- `clamp(i, j, m)` (40_threshold.md R101): a value above m snaps to the low bound j, not to m. -/
def clamp {α : Type} [LT α] [DecidableLT α] (i j m : α) : α := if m < i ∨ i < j then j else i

/-- DefaultPC in the branch m >= 128 (40_threshold.md R104). -/
def defaultPcUpper (m n : Nat) : PresetParams :=
  let f := (min m 4095 + 128) / 256
  let t1 := clamp (f * (stdT1 - 2) + 2 + 3 * n) (n + 1) m
  let t2 := clamp (f * (stdT2 - 3) + 3 + 5 * n) t1 m
  let t3 := clamp (f * (stdT3 - 4) + 4 + 7 * n) t2 m
  ⟨m, t1, t2, t3, stdReset⟩

/-- DefaultPC in the branch m < 128 (40_threshold.md R104). -/
def defaultPcLower (m n : Nat) : PresetParams :=
  let f := 256 / (m + 1)
  let t1 := clamp (max 2 (stdT1 / f + 3 * n)) (n + 1) m
  let t2 := clamp (max 3 (stdT2 / f + 5 * n)) t1 m
  let t3 := clamp (max 4 (stdT3 / f + 7 * n)) t2 m
  ⟨m, t1, t2, t3, stdReset⟩

/-- `DefaultPC(m, n)` (40_threshold.md R104), total on every m and n. -/
def defaultPc (m n : Nat) : PresetParams :=
  if 128 ≤ m then defaultPcUpper m n else defaultPcLower m n

/-- `IsDefault(c)` (40_threshold.md R108). -/
def isDefault (c : PresetParams) : Bool :=
  c.maxval == 0 && c.t1 == 0 && c.t2 == 0 && c.t3 == 0 && c.reset == 0

/-- The effective MAXVAL of a candidate (40_threshold.md R109, step 1). -/
def effectiveMaxval (c : PresetParams) (mcv : Nat) : Nat := if c.maxval ≠ 0 then c.maxval else mcv

/-- The effective T1 of a candidate over the defaults d (40_threshold.md R109, step 3). -/
def effectiveT1 (c d : PresetParams) : Nat := if c.t1 ≠ 0 then c.t1 else d.t1

/-- The effective T2 of a candidate over the defaults d (40_threshold.md R109, step 4). -/
def effectiveT2 (c d : PresetParams) : Nat := if c.t2 ≠ 0 then c.t2 else d.t2

/-- `IsValid(c, mcv, n)` (40_threshold.md R109), in the order of its steps. The defaults of step 3 are computed without
a precondition check. -/
def isValid (c : PresetParams) (mcv n : Nat) : Bool :=
  if c.maxval ≠ 0 ∧ ¬(1 ≤ c.maxval ∧ c.maxval ≤ mcv) then false
  else
    let em := effectiveMaxval c mcv
    if c.t1 ≠ 0 ∧ ¬(n + 1 ≤ c.t1 ∧ c.t1 ≤ em) then false
    else
      let d := defaultPc em n
      let e1 := effectiveT1 c d
      if c.t2 ≠ 0 ∧ ¬(e1 ≤ c.t2 ∧ c.t2 ≤ em) then false
      else
        let e2 := effectiveT2 c d
        if c.t3 ≠ 0 ∧ ¬(e2 ≤ c.t3 ∧ c.t3 ≤ em) then false
        else if c.reset ≠ 0 ∧ ¬(3 ≤ c.reset ∧ c.reset ≤ max 255 em) then false
        else true

/-- The precondition of PC_DEFAULT fails (40_threshold.md R107, 60_exceptions.md R162). -/
def pcDefaultViolates (s : State) : Bool :=
  msvOperand s.regs == 0 || decide (maxNear s.config (msvOperand s.regs) < nearOperand s.regs)

/-- Store a parameter set in O_*, each field in its 16 bits (40_threshold.md R107, R105). -/
def storeDefaults (p : PresetParams) (s : State) : State :=
  setDefaults (BitVec.ofNat 16 p.maxval) (BitVec.ofNat 16 p.t1) (BitVec.ofNat 16 p.t2) (BitVec.ofNat 16 p.t3)
    (BitVec.ofNat 16 p.reset) s

/-- PC_DEFAULT (40_threshold.md R107). -/
def execPcDefault (s : State) : Host.Outcome State Fault Refusal :=
  if pcDefaultViolates s then raise .contractViolation s
  else done (storeDefaults (defaultPc (msvOperand s.regs) (nearOperand s.regs)) s)

/-- PC_ISDEFAULT (40_threshold.md R108). -/
def execPcIsDefault (s : State) : Host.Outcome State Fault Refusal :=
  done (setResult (isDefault (candidate s.regs)) s)

/-- PC_ISVALID (40_threshold.md R110). -/
def execPcIsValid (s : State) : Host.Outcome State Fault Refusal :=
  done (setResult (isValid (candidate s.regs) (mcvOperand s.regs) (nearOperand s.regs)) s)

end Sys2Proof.Machine
end

