-- ==== Sys2Proof/Machine/Dispatch.lean ====
section
/-! DEFINITION. One arm per command (30_encoding.md R71). exec runs after CMD holds the word (10_state.md R23). -/

namespace Sys2Proof.Machine

def exec (i : Instr) (s : State) : Host.Outcome State Fault Refusal :=
  match i with
  | .pcDefault => Sys2Proof.Machine.execPcDefault s
  | .pcIsDefault => Sys2Proof.Machine.execPcIsDefault s
  | .pcIsValid => Sys2Proof.Machine.execPcIsValid s
  | .segSof => Sys2Proof.Machine.execSegSof s
  | .segJfif => Sys2Proof.Machine.execSegJfif s
  | .segLse => Sys2Proof.Machine.execSegLse s
  | .segApp8 => Sys2Proof.Machine.execSegApp8 s
  | .segSos => Sys2Proof.Machine.execSegSos s

end Sys2Proof.Machine
end

