-- ==== Sys2Proof/Machine/HostPort.lean ====
section
/-! DEFINITION. What one host action does (30_encoding.md R82): register writes and commands, reads, THUMB writes,
skips, reset. -/

namespace Sys2Proof.Machine

/-- The command a word selects, performed on a state in which CMD already holds the word; a word that selects none
raises IllegalCommand (10_state.md R23, 30_encoding.md R72, 60_exceptions.md R164). -/
def performCommand (w : Word) (s : State) : Host.Outcome State Fault Refusal :=
  match decode w with
  | .instr i => exec i s
  | .illegal _ => raise .illegalCommand s

/-- The state in which a host write of `v` to the register at `idx` has been stored and the host has gone on
(10_state.md R22, R23, R35). -/
def afterWrite (idx : Byte) (v : Word) (s : State) : State :=
  storeIndex idx v (newEpoch (advanceHost 1 s))

/-- `wr NAME, v` (30_encoding.md R82): the value is stored, and a write to CMD then performs the command
(10_state.md R22 (f), R23). -/
def hostWrite (idx : Byte) (v : Word) (s : State) : Host.Outcome State Fault Refusal :=
  if idx = cmdIndex then performCommand v (afterWrite idx v s) else .next (afterWrite idx v s)

/-- `rd NAME` (30_encoding.md R82): no side effect in the block (10_state.md R22 (e)). -/
def hostRead (idx : Byte) (s : State) : Host.Outcome State Fault Refusal :=
  .next (advanceHost 1 (observe (.register idx (readIndex s.regs idx)) s))

/-- `rdb k` (30_encoding.md R82, 20_memory.md R58). -/
def hostReadByte (k : Nat) (s : State) : Host.Outcome State Fault Refusal :=
  if k < segCap then .next (advanceHost 1 (observe (.segByte k (segByte s k)) s))
  else .refused (.segBufOffsetOutOfRange k)

/-- `wrt a, b` (30_encoding.md R82, 20_memory.md R57): never refused (60_exceptions.md R172; log entry 7). -/
def hostWriteThumb (a : Nat) (b : Byte) (s : State) : Host.Outcome State Fault Refusal :=
  .next (newEpoch (advanceHost 1 (storeThumb a b s)))

/-- `skipz NAME, k` (30_encoding.md R82, 10_state.md R35): to the block a plain register read. -/
def hostSkip (idx : Byte) (k : Nat) (s : State) : Host.Outcome State Fault Refusal :=
  .next (advanceHost (if readIndex s.regs idx = 0 then 1 + k else 1)
    (observe (.register idx (readIndex s.regs idx)) s))

/-- `reset` (30_encoding.md R82, 70_reset_and_hazards.md R190). -/
def hostReset (s : State) : Host.Outcome State Fault Refusal :=
  .next (resetBlock (newEpoch (advanceHost 1 s)))

/-- One host action (30_encoding.md R82). -/
def perform (a : HostAction) (s : State) : Host.Outcome State Fault Refusal :=
  match a with
  | .wr idx v => hostWrite idx v s
  | .rd idx => hostRead idx s
  | .rdb k => hostReadByte k s
  | .wrt a b => hostWriteThumb a b s
  | .skipz idx k => hostSkip idx k s
  | .reset => hostReset s

/-- The host's next action, none when its program has ended (10_state.md R35). -/
def nextAction (s : State) : Option HostAction := s.program[s.hostIndex]?

/-- The host's next action if there is one; with none the block holds its state (60_exceptions.md R177). -/
def stepHost (s : State) : Host.Outcome State Fault Refusal :=
  match nextAction s with
  | some a => perform a s
  | none => .next s

/-- A host program loaded from outside the machine, its first statement the next to run (log entry 8). -/
def loadProgram (p : List HostAction) (s : State) : State := { s with program := p, hostIndex := 0 }

end Sys2Proof.Machine
end

