-- ==== Sys2Proof/Machine/Step.lean ====
section
/-! DEFINITION. One step of the machine: the host's next action and what the block does for it. -/

namespace Sys2Proof.Machine

/-- One step (00_scope.md R13, 20_memory.md R56, R59): one host action, a whole command included. -/
def step (s : State) : Host.Outcome State Fault Refusal := stepHost s

/-- The state whose very next step writes the command word `w` to CMD: the block fetches nothing (20_memory.md R62),
so a command reaches it as the host's next action (log entry 13). -/
def State.withFetchWord (s : State) (nbits w : Nat) : State :=
  loadProgram [.wr cmdIndex (BitVec.ofNat 32 (w % 2 ^ nbits))] s

end Sys2Proof.Machine
end

