-- ==== Sys2Proof/Machine/Framing.lean ====
section
/-! DEFINITION. The framed layout the host's bitstream writer gives a segment (30_encoding.md R83). The block does not
produce it (00_scope.md R5 (b)); it stands here so that the host's premise of R197 can be stated. -/

namespace Sys2Proof.Machine

/-- L = 2 + len(s), the framed length field (30_encoding.md R83). -/
def framedLength (s : List Byte) : Nat := 2 + s.length

/-- The framed bytes `[0xFF, code, hi8(L), lo8(L)] ++ s`; none where L does not fit its two bytes, which a writer must
not frame (30_encoding.md R83, 70_reset_and_hazards.md R197; log entry 17). -/
def frameSegment (code : Byte) (s : List Byte) : Option (List Byte) :=
  if framedLength s ≤ 65535 then
    some ([0xFF, code, hi8 (BitVec.ofNat 16 (framedLength s)), lo8 (BitVec.ofNat 16 (framedLength s))] ++ s)
  else none

end Sys2Proof.Machine
end

