-- ==== Sys2Proof/Safety.lean ====
section
/-! DEFINITION. What counts as a successful run, the host's premises, and the invariant of the block. -/

namespace Sys2Proof.Machine

/-- A state that may count as a successful final state: no fault is recorded (10_state.md R26, 60_exceptions.md R166),
and CODE is no reserved value (10_state.md R25, 93_implementation_defined.md U13). DESIGN CHOICE (log entry 19): it looks
at the present FAULT bit only, so a host that faulted and then took a reset (R190) starts a new run that may succeed;
R166 keeps the fault "for the rest of the run" and does not say whether a reset ends the run. -/
def State.successful (s : State) : Bool := s.regs.fault == 0 && decide (s.regs.code.toNat ≤ 3)

/-- The content of the last segment built, as the host reads it (10_state.md R34, 20_memory.md R58). -/
def State.segment (s : State) : List Byte := (List.range s.regs.segLen.toNat).map (segByte s)

/-- The host's premise for framing the segment in SEG_BUF (70_reset_and_hazards.md R197). -/
def State.framable (s : State) : Bool := decide (s.regs.segLen.toNat ≤ 65533)

/-- The marker codes a command can write to SEG_CODE (30_encoding.md R75, 90_conflicts.md C7). -/
def markerCodes (c : Config) : List Byte := [c.mcSof, c.mcApp0, c.mcLse, c.mcApp8, c.mcSos]

/-- O_* holds nothing yet, or a derived set: `0 < T1 <= T2 <= T3 <= MAXVAL` and RESET = STD_RESET
(40_threshold.md R100, R106). -/
def Regs.derivedSetOk (r : Regs) : Prop :=
  (r.oMaxval = 0 ∧ r.oT1 = 0 ∧ r.oT2 = 0 ∧ r.oT3 = 0 ∧ r.oReset = 0) ∨
  (0 < r.oT1.toNat ∧ r.oT1.toNat ≤ r.oT2.toNat ∧ r.oT2.toNat ≤ r.oT3.toNat ∧ r.oT3.toNat ≤ r.oMaxval.toNat ∧
    r.oReset.toNat = stdReset)

/-- Each register of 10_state.md R21 reads its field, by the index the map gives it. -/
def Regs.readsEachField (r : Regs) : Prop :=
  readIndex r 0x00 = r.cmd ∧ (readIndex r 0x01).toNat = r.code.toNat + 256 * r.fault.toNat ∧
  (readIndex r 0x02).toNat = r.msv.toNat ∧ (readIndex r 0x03).toNat = r.near.toNat ∧
  (readIndex r 0x04).toNat = r.mcv.toNat ∧ (readIndex r 0x05).toNat = r.pMaxval.toNat ∧
  (readIndex r 0x06).toNat = r.pT1.toNat ∧ (readIndex r 0x07).toNat = r.pT2.toNat ∧
  (readIndex r 0x08).toNat = r.pT3.toNat ∧ (readIndex r 0x09).toNat = r.pReset.toNat ∧
  (readIndex r 0x0A).toNat = r.fWidth.toNat ∧ (readIndex r 0x0B).toNat = r.fHeight.toNat ∧
  (readIndex r 0x0C).toNat = r.fBps.toNat ∧ (readIndex r 0x0D).toNat = r.fNf.toNat ∧
  (readIndex r 0x0E).toNat = r.jVersion.toNat ∧ (readIndex r 0x0F).toNat = r.jUnits.toNat ∧
  (readIndex r 0x10).toNat = r.jXdens.toNat ∧ (readIndex r 0x11).toNat = r.jYdens.toNat ∧
  (readIndex r 0x12).toNat = r.jXthumb.toNat ∧ (readIndex r 0x13).toNat = r.jYthumb.toNat ∧
  (readIndex r 0x14).toNat = r.jTpres.toNat ∧ (readIndex r 0x15).toNat = r.xform.toNat ∧
  (readIndex r 0x16).toNat = r.sNs.toNat ∧ (readIndex r 0x17).toNat = r.sIlv.toNat ∧
  (readIndex r 0x18).toNat = r.sCidx.toNat ∧ (readIndex r 0x19).toNat = r.oMaxval.toNat ∧
  (readIndex r 0x1A).toNat = r.oT1.toNat ∧ (readIndex r 0x1B).toNat = r.oT2.toNat ∧
  (readIndex r 0x1C).toNat = r.oT3.toNat ∧ (readIndex r 0x1D).toNat = r.oReset.toNat ∧
  (readIndex r 0x1E).toNat = r.result.toNat ∧ (readIndex r 0x1F).toNat = r.segCode.toNat ∧
  (readIndex r 0x20).toNat = r.segLen.toNat

/-- Two register files agree on the operands a command reads (30_encoding.md R74). SEG_SOS reads S_NS only in its
all-components form (41_segments.md R139). -/
def operandsAgree : Instr → Regs → Regs → Prop
  | .pcDefault, r, q => r.msv = q.msv ∧ r.near = q.near
  | .pcIsDefault, r, q => candidate r = candidate q
  | .pcIsValid, r, q => candidate r = candidate q ∧ r.mcv = q.mcv ∧ r.near = q.near
  | .segSof, r, q => r.fWidth = q.fWidth ∧ r.fHeight = q.fHeight ∧ r.fBps = q.fBps ∧ r.fNf = q.fNf
  | .segJfif, r, q =>
    r.jVersion = q.jVersion ∧ r.jUnits = q.jUnits ∧ r.jXdens = q.jXdens ∧ r.jYdens = q.jYdens ∧
      r.jXthumb = q.jXthumb ∧ r.jYthumb = q.jYthumb ∧ r.jTpres = q.jTpres
  | .segLse, r, q => candidate r = candidate q
  | .segApp8, r, q => r.xform = q.xform
  | .segSos, r, q => r.sCidx = q.sCidx ∧ r.near = q.near ∧ r.sIlv = q.sIlv ∧ (r.sCidx.toInt < 0 → r.sNs = q.sNs)

/-- A command of the marker segment family (41_segments.md). -/
def buildsSegment : Instr → Bool
  | .pcDefault => false
  | .pcIsDefault => false
  | .pcIsValid => false
  | .segSof => true
  | .segJfif => true
  | .segLse => true
  | .segApp8 => true
  | .segSos => true

/-- The marker code a segment command reports (30_encoding.md R75). -/
def markerCode (c : Config) : Instr → Byte
  | .pcDefault => 0
  | .pcIsDefault => 0
  | .pcIsValid => 0
  | .segSof => c.mcSof
  | .segJfif => c.mcApp0
  | .segLse => c.mcLse
  | .segApp8 => c.mcApp8
  | .segSos => c.mcSos

/-- t of 41_segments.md R135: the number of thumbnail bytes a SEG_JFIF that succeeds appends. -/
def Regs.thumbLength (r : Regs) : Nat :=
  if r.jXthumb.toNat = 0 then 0 else 3 * r.jXthumb.toNat * r.jYthumb.toNat

/-- The content a segment command that succeeds builds (41_segments.md R133, R134, R137 to R139). -/
def builtContent (i : Instr) (s : State) : List Byte :=
  match i with
  | .pcDefault => []
  | .pcIsDefault => []
  | .pcIsValid => []
  | .segSof => sofContent s.regs
  | .segJfif => jfifContent s.regs s.thumb s.regs.thumbLength
  | .segLse => lseContent s.regs
  | .segApp8 => app8Content s.regs
  | .segSos => sosContent s.regs

/-- A host action that changes none of P_MAXVAL to P_RESET (70_reset_and_hazards.md R195): no reset, and no write to
their indices. -/
def HostAction.keepsCandidate : HostAction → Bool
  | .wr idx _ => decide (idx ∉ [Reg.pMaxval.index, Reg.pT1.index, Reg.pT2.index, Reg.pT3.index, Reg.pReset.index])
  | .reset => false
  | .rd _ => true
  | .rdb _ => true
  | .wrt _ _ => true
  | .skipz _ _ => true

/-- Two states agree on the results a command writes: O_* for PC_DEFAULT, RESULT for the two tests, SEG_CODE, SEG_LEN
and the content for a segment command (10_state.md R31 to R33). -/
def resultsAgree (i : Instr) (s t : State) : Prop :=
  match i with
  | .pcDefault =>
    s.regs.oMaxval = t.regs.oMaxval ∧ s.regs.oT1 = t.regs.oT1 ∧ s.regs.oT2 = t.regs.oT2 ∧ s.regs.oT3 = t.regs.oT3 ∧
      s.regs.oReset = t.regs.oReset
  | .pcIsDefault => s.regs.result = t.regs.result
  | .pcIsValid => s.regs.result = t.regs.result
  | _ =>
    s.regs.segCode = t.regs.segCode ∧ s.regs.segLen = t.regs.segLen ∧
      ∀ k, k < s.regs.segLen.toNat → segByte s k = segByte t k

/-- The invariant of the machine: what every step keeps and reset has. -/
structure State.Inv (s : State) : Prop where
  /-- SEG_BUF keeps its canonical form -/
  segWf : s.segBuf.wf
  /-- THUMB keeps its canonical form -/
  thumbWf : s.thumb.wf
  /-- SEG_BUF lists only offsets below SEG_CAP (20_memory.md R50) -/
  segInside : ∀ c ∈ s.segBuf, c.1 < segCap
  /-- THUMB lists only offsets below THUMB_CAP (20_memory.md R50) -/
  thumbInside : ∀ c ∈ s.thumb, c.1 < thumbCap
  /-- SEG_LEN never exceeds SEG_CAP (10_state.md R33) -/
  lenInside : s.regs.segLen.toNat ≤ segCap
  /-- every content byte is held (10_state.md R34) -/
  contentHeld : ∀ k, k < s.regs.segLen.toNat → (s.segBuf.get? k).isSome
  /-- CODE is never a reserved value (10_state.md R25) -/
  codeLegal : s.regs.code.toNat ≤ 3
  /-- a violation or an illegal command has set FAULT (10_state.md R26) -/
  faultRecorded : 2 ≤ s.regs.code.toNat → s.regs.fault = 1
  /-- SEG_CODE is 0 before the first segment, else one of the five codes (30_encoding.md R75) -/
  markerKnown : s.regs.segCode = 0 ∧ s.regs.segLen = 0 ∨ s.regs.segCode ∈ markerCodes s.config
  /-- O_* is a derived set or nothing (40_threshold.md R106) -/
  derivedSet : s.regs.derivedSetOk
  /-- MAX_NEAR satisfies its constraint (40_threshold.md R102) -/
  configLegal : s.config.legal = true

end Sys2Proof.Machine
end

