-- ==== Sys2Proof/Certificates/Slice0/Obligations.lean ====
section
/-! DEFINITION. The statements for the provers. Each docstring names the rule of spec/ it formalises. A clause about
`hostIndex`, `observed`, `drawEpoch` or `config` is about the model's own fields (log entries 1, 4, 8, 9). -/

open Sys2Proof Sys2Proof.Machine

/-! ### Decoding and running a command -/

/-- 10_state.md R23, 20_memory.md R62: when the host's next action writes a word to CMD that selects a command, a step
stores the word in CMD and is that command, the host having gone on by one statement. -/
def Obligations.StepRunsDecodedCommand : Prop :=
  ∀ (s : State) (w : Word) (i : Instr), nextAction s = some (.wr cmdIndex w) → decode w = .instr i →
    step s = exec i
      { s with regs := { s.regs with cmd := w }, hostIndex := s.hostIndex + 1, drawEpoch := s.drawEpoch + 1 }

/-- The word a program is started with reaches CMD and runs, from every state (log entry 13). -/
def Obligations.PlacedCommandRunsNext : Prop :=
  ∀ (s : State) (i : Instr), ∃ t, step (s.withFetchWord 32 (encode i).toNat) = .next t ∧ t.regs.cmd = encode i ∧
    step (s.withFetchWord 32 (encode i).toNat) = exec i
      { s with
        regs := { s.regs with cmd := encode i }
        program := [.wr cmdIndex (encode i)]
        hostIndex := 1
        drawEpoch := s.drawEpoch + 1 }

/-- 30_encoding.md R71: the words of the opcode map, written out, and two words beside them. -/
def Obligations.CommandWordsDecode : Prop :=
  decode 0x00000001 = .instr .pcDefault ∧ decode 0x00000002 = .instr .pcIsDefault ∧
  decode 0x00000003 = .instr .pcIsValid ∧ decode 0x00000010 = .instr .segSof ∧
  decode 0x00000011 = .instr .segJfif ∧ decode 0x00000012 = .instr .segLse ∧
  decode 0x00000013 = .instr .segApp8 ∧ decode 0x00000014 = .instr .segSos ∧
  decode 0x00000000 = .illegal (.illegalOpcode 0x00) ∧ decode 0x80000012 = .illegal (.reservedBitsSet 0x800000)

/-- 30_encoding.md R71, R73: decoding and encoding agree in both directions, and exactly eight words of the 2^32 select
an operation, each the one the opcode map gives it. -/
def Obligations.DecodeEncodeAgree : Prop :=
  (∀ i : Instr, i.wellFormed = true → decode (encode i) = .instr i) ∧
  (∀ (w : Word) (i : Instr), decode w = .instr i → w = encode i) ∧
  (∀ (w : Word) (i : Instr), decode w = .instr i ↔
    (w.toNat, i) ∈ [(0x00000001, Instr.pcDefault), (0x00000002, .pcIsDefault), (0x00000003, .pcIsValid),
      (0x00000010, .segSof), (0x00000011, .segJfif), (0x00000012, .segLse), (0x00000013, .segApp8),
      (0x00000014, .segSos)])

/-- 30_encoding.md R72, 60_exceptions.md R164: a CMD write of any other word (an OP outside the eight values or RSV not
0) records CODE = 3, FAULT = 1 and the word in CMD, and writes nothing else of the block. -/
def Obligations.IllegalCommandWords : Prop :=
  ∀ (s : State) (w : Word), nextAction s = some (.wr cmdIndex w) →
    (w.toNat % 256 ∉ [0x01, 0x02, 0x03, 0x10, 0x11, 0x12, 0x13, 0x14] ∨ w.toNat / 256 ≠ 0 →
      ∃ t, step s = .next t ∧ t.regs = { s.regs with cmd := w, code := 3, fault := 1 } ∧ t.segBuf = s.segBuf ∧
        t.thumb = s.thumb) ∧
    (w.toNat % 256 ∈ [0x01, 0x02, 0x03, 0x10, 0x11, 0x12, 0x13, 0x14] → w.toNat / 256 = 0 →
      ∃ t, step s = .next t ∧ t.regs.code ≠ 3)

/-- 30_encoding.md R82: the triple encoding of host actions loses nothing and is unambiguous (log entry 14). -/
def Obligations.HostActionTriplesRoundTrip : Prop :=
  (∀ a : HostAction, decodeAction (encodeAction a) = some a) ∧
  (∀ (t : ActionTriple) (a : HostAction), decodeAction t = some a → encodeAction a = t)

/-! ### Registers and STATUS -/

/-- 10_state.md R21: the register map. Each index reads its field zero-extended, the reserved indices read 0, and after
reset every index reads 0. -/
def Obligations.RegisterMapReadsEachField : Prop :=
  (∀ r : Regs, r.readsEachField ∧ ∀ idx : Byte, 0x21 ≤ idx.toNat → readIndex r idx = 0) ∧
  ∀ idx : Byte, readIndex State.reset.regs idx = 0

/-- 10_state.md R22 (a) to (f): a write to an RW register other than CMD stores the value's low bits in its field and
changes nothing else of the block; a read returns the field zero-extended, STATUS only bits [2:0] and [8]; a write to an
RO register or a reserved index changes nothing of the block, and a reserved index reads 0; a read has no side effect;
CMD is the one register a write to which performs a command. -/
def Obligations.RegisterAccessRules : Prop :=
  (∀ (s : State) (idx : Byte) (v : Word) (reg : Reg),
    nextAction s = some (.wr idx v) → Reg.ofIndex idx = some reg → reg.access = .rw →
    ∃ t, step s = .next t ∧ (readIndex t.regs idx).toNat = v.toNat % 2 ^ reg.width ∧
      (∀ j, j ≠ idx → readIndex t.regs j = readIndex s.regs j) ∧ t.segBuf = s.segBuf ∧ t.thumb = s.thumb) ∧
  (∀ r : Regs, r.readsEachField ∧ r.read .status &&& 0xFFFFFEF8 = 0) ∧
  (∀ (r : Regs) (reg : Reg), (r.read reg).toNat < 2 ^ reg.width) ∧
  (∀ (s : State) (idx : Byte) (v : Word), nextAction s = some (.wr idx v) →
    (Reg.ofIndex idx = none ∨ ∃ reg, Reg.ofIndex idx = some reg ∧ reg.access = .ro) →
    ∃ t, step s = .next t ∧ t.regs = s.regs ∧ t.segBuf = s.segBuf ∧ t.thumb = s.thumb) ∧
  (∀ (r : Regs) (idx : Byte), 0x21 ≤ idx.toNat → Reg.ofIndex idx = none ∧ readIndex r idx = 0) ∧
  (∀ (s : State) (idx : Byte), nextAction s = some (.rd idx) →
    ∃ t, step s = .next t ∧ t.regs = s.regs ∧ t.segBuf = s.segBuf ∧ t.thumb = s.thumb) ∧
  (∀ idx : Byte, (∃ reg, Reg.ofIndex idx = some reg ∧ reg.access = .rwExecutes) ↔ idx = 0x00)

/-- 10_state.md R24: STATUS is CODE in [2:0] and FAULT in [8]; its other bits read 0; it reads 0 after reset. -/
def Obligations.StatusWordLayout : Prop :=
  (∀ r : Regs, (readIndex r 0x01).extractLsb' 0 3 = r.code ∧ (readIndex r 0x01).extractLsb' 8 1 = r.fault ∧
    (readIndex r 0x01).extractLsb' 3 5 = 0 ∧ (readIndex r 0x01).extractLsb' 9 23 = 0) ∧
  readIndex State.reset.regs 0x01 = 0

/-- 10_state.md R26: a command that ends in CONTRACT_VIOLATION or ILLEGAL_COMMAND sets FAULT, one that ends in OK or
INVALID_PARAMETERS leaves it, no step but a reset clears it, a reset clears it, and a state with FAULT = 1 is never a
successful final state. -/
def Obligations.FaultIsSticky : Prop :=
  (∀ (s t : State) (w : Word), nextAction s = some (.wr cmdIndex w) → step s = .next t →
    (t.regs.code = 2 ∨ t.regs.code = 3 → t.regs.fault = 1) ∧
    (t.regs.code = 0 ∨ t.regs.code = 1 → t.regs.fault = s.regs.fault)) ∧
  (∀ s t : State, step s = .next t → s.regs.fault = 1 → nextAction s ≠ some .reset → t.regs.fault = 1) ∧
  (∀ s : State, nextAction s = some .reset → ∃ t, step s = .next t ∧ t.regs.fault = 0) ∧
  (∀ s : State, s.regs.fault = 1 → s.successful = false)

/-- 60_exceptions.md R160, R161, 10_state.md R25: every CMD write completes with CMD holding the word and CODE one of 0
to 3; one that ends with CODE other than 0 writes only STATUS and CMD of the block, and FAULT exactly when CODE is 2
or 3. -/
def Obligations.FailedCommandWritesOnlyStatus : Prop :=
  ∀ (s : State) (w : Word), nextAction s = some (.wr cmdIndex w) →
    ∃ t, step s = .next t ∧ t.regs.cmd = w ∧ t.regs.code.toNat ≤ 3 ∧
      (t.regs.code ≠ 0 → t =
        { s with
          regs :=
            { s.regs with
              cmd := w
              code := t.regs.code
              fault := if t.regs.code = 1 then s.regs.fault else 1 }
          hostIndex := s.hostIndex + 1
          drawEpoch := s.drawEpoch + 1 }) ∧
      (t.regs.code = 0 → t.regs.fault = s.regs.fault)

/-- 60_exceptions.md R170: the next command simply runs, even with FAULT = 1 and whatever CODE is. Every command
computes the same on two states that differ only in STATUS, FAULT staying sticky. -/
def Obligations.StatusNeverBlocksCommands : Prop :=
  ∀ (i : Instr) (s t : State) (code : BitVec 3) (fault : BitVec 1), exec i s = .next t →
    exec i { s with regs := { s.regs with code := code, fault := fault } } = .next
      { t with regs := { t.regs with fault := if t.regs.code = 2 ∨ t.regs.code = 3 then 1 else fault } }

/-! ### Reset and the invariant -/

/-- 70_reset_and_hazards.md R190: at power-on and after a host `reset` every register reads 0 and every byte of SEG_BUF
is unspecified (a host read is the free draw, whatever it is), THUMB is unaffected, reset performs no command, and it
is the only event that clears FAULT. The draw epoch is the model's own (log entries 3, 4, 12). -/
def Obligations.ResetClearsTheBlock : Prop :=
  (∀ idx : Byte, readIndex State.reset.regs idx = 0) ∧
  (∀ k, segByte State.reset k = Config.freeSegByte State.reset.drawEpoch k) ∧
  (∀ s : State, nextAction s = some .reset →
    ∃ t, step s = .next t ∧ (∀ idx : Byte, readIndex t.regs idx = 0) ∧
      (∀ k, segByte t k = Config.freeSegByte t.drawEpoch k) ∧ t.drawEpoch = s.drawEpoch + 1 ∧
      t.thumb = s.thumb ∧ t.config = s.config ∧ t.program = s.program ∧ t.hostIndex = s.hostIndex + 1 ∧
      t.observed = s.observed) ∧
  (∀ s t : State, step s = .next t → s.regs.fault = 1 → t.regs.fault = 0 → nextAction s = some .reset)

/-- The reset state satisfies the invariant. -/
def Obligations.ResetSatisfiesInvariant : Prop := State.reset.Inv

/-- From every state that satisfies the invariant, whichever action comes next, a step that answers a next state gives
one that satisfies it: both byte spaces stay canonical and inside their size, SEG_LEN stays at most SEG_CAP with every
content byte held, CODE is never reserved, a violation has FAULT set, SEG_CODE is one of the five codes, and O_* is a
rising set or empty. -/
def Obligations.StepKeepsInvariant : Prop :=
  ∀ s t : State, s.Inv → step s = .next t → t.Inv

/-! ### Preset coding parameters -/

/-- 40_threshold.md R101: clamp, on the integers. A value above m or below j gives j, never m; else the value. -/
def Obligations.ClampSnapsToLowBound : Prop :=
  (∀ i j m : Int, m < i ∨ i < j → clamp i j m = j) ∧
  (∀ i j m : Int, j ≤ i → i ≤ m → clamp i j m = i) ∧
  (∀ i j m : Int, m < j → clamp i j m = j) ∧
  clamp (300 : Int) 5 255 = 5 ∧ clamp (3 : Int) 5 255 = 5 ∧ clamp (100 : Int) 5 255 = 100 ∧
  clamp (255 : Int) 5 255 = 255 ∧ clamp (5 : Int) 5 255 = 5

/-- 40_threshold.md R102: MAX_NEAR is total from [1, 65535] to [0, 255]; a legal one satisfies MAX_NEAR(m) <= m - 1;
the default is min(255, m div 2) and is legal. -/
def Obligations.MaxNearIsBounded : Prop :=
  (∀ (c : Config) (m : Nat), maxNear c m ≤ 255) ∧
  (∀ (c : Config) (m : Nat), c.legal = true → 1 ≤ m → maxNear c m ≤ m - 1) ∧
  (∀ m : Nat, maxNear defaultConfig m = if m / 2 ≤ 255 then m / 2 else 255) ∧ defaultConfig.legal = true

/-- 40_threshold.md R104, R105: DefaultPC is total; for every m and n its thresholds rise from at least n + 1, no
field needs more than 16 bits, so the O_* registers hold a derived set exactly, and MAXVAL is m and RESET 64. -/
def Obligations.DerivedFieldsFit : Prop :=
  ∀ m n : Nat, m ≤ 65535 → n ≤ 255 →
    let p := defaultPc m n
    p.maxval = m ∧ p.reset = 64 ∧ n + 1 ≤ p.t1 ∧ p.t1 ≤ p.t2 ∧ p.t2 ≤ p.t3 ∧ p.t3 ≤ max m (n + 1) ∧ p.t3 < 65536 ∧
    ∀ s : State, (storeDefaults p s).regs.oMaxval.toNat = m ∧ (storeDefaults p s).regs.oT1.toNat = p.t1 ∧
      (storeDefaults p s).regs.oT2.toNat = p.t2 ∧ (storeDefaults p s).regs.oT3.toNat = p.t3 ∧
      (storeDefaults p s).regs.oReset.toNat = 64

/-- 40_threshold.md R104: the thresholds, each clamp written out as its case distinction: a threshold is its formula
where that lies between its lower bound and m, else its lower bound. -/
def Obligations.DerivedThresholdsFollowTheFormula : Prop :=
  ∀ m n : Nat,
    let p := defaultPc m n
    (128 ≤ m →
      let f := (min m 4095 + 128) / 256
      (n + 1 ≤ f * 1 + 2 + 3 * n ∧ f * 1 + 2 + 3 * n ≤ m ∧ p.t1 = f * 1 + 2 + 3 * n ∨
        ¬(n + 1 ≤ f * 1 + 2 + 3 * n ∧ f * 1 + 2 + 3 * n ≤ m) ∧ p.t1 = n + 1) ∧
      (p.t1 ≤ f * 4 + 3 + 5 * n ∧ f * 4 + 3 + 5 * n ≤ m ∧ p.t2 = f * 4 + 3 + 5 * n ∨
        ¬(p.t1 ≤ f * 4 + 3 + 5 * n ∧ f * 4 + 3 + 5 * n ≤ m) ∧ p.t2 = p.t1) ∧
      (p.t2 ≤ f * 17 + 4 + 7 * n ∧ f * 17 + 4 + 7 * n ≤ m ∧ p.t3 = f * 17 + 4 + 7 * n ∨
        ¬(p.t2 ≤ f * 17 + 4 + 7 * n ∧ f * 17 + 4 + 7 * n ≤ m) ∧ p.t3 = p.t2)) ∧
    (m < 128 →
      let f := 256 / (m + 1)
      let a1 := max 2 (3 / f + 3 * n)
      let a2 := max 3 (7 / f + 5 * n)
      let a3 := max 4 (21 / f + 7 * n)
      (n + 1 ≤ a1 ∧ a1 ≤ m ∧ p.t1 = a1 ∨ ¬(n + 1 ≤ a1 ∧ a1 ≤ m) ∧ p.t1 = n + 1) ∧
      (p.t1 ≤ a2 ∧ a2 ≤ m ∧ p.t2 = a2 ∨ ¬(p.t1 ≤ a2 ∧ a2 ≤ m) ∧ p.t2 = p.t1) ∧
      (p.t2 ≤ a3 ∧ a3 ≤ m ∧ p.t3 = a3 ∨ ¬(p.t2 ≤ a3 ∧ a3 ≤ m) ∧ p.t3 = p.t2)) ∧
    p.maxval = m ∧ p.reset = 64

/-- 40_threshold.md R106 (a) and (b): for every m in [1, 65535] and n in [0, MAX_NEAR(m)], under every legal MAX_NEAR,
the derived set is monotone with RESET = STD_RESET, and it is legal. -/
def Obligations.DefaultsAreMonotoneAndLegal : Prop :=
  ∀ (c : Config) (m n : Nat), c.legal = true → 1 ≤ m → m ≤ 65535 → n ≤ maxNear c m →
    n < (defaultPc m n).t1 ∧ (defaultPc m n).t1 ≤ (defaultPc m n).t2 ∧ (defaultPc m n).t2 ≤ (defaultPc m n).t3 ∧
    (defaultPc m n).t3 ≤ m ∧ (defaultPc m n).reset = stdReset ∧ isValid (defaultPc m n) m n = true

/-- 40_threshold.md R106 at the registers: whatever set a successful PC_DEFAULT leaves in O_*, a state that holds it in
P_*, the same maximum in MCV and the same NEAR has PC_ISVALID answer RESULT = 1. -/
def Obligations.DerivedSetPassesValidation : Prop :=
  ∀ s t u : State, s.config.legal = true → exec .pcDefault s = .next t → t.regs.code = 0 →
    u.regs.pMaxval = t.regs.oMaxval → u.regs.pT1 = t.regs.oT1 → u.regs.pT2 = t.regs.oT2 →
    u.regs.pT3 = t.regs.oT3 → u.regs.pReset = t.regs.oReset → u.regs.mcv = s.regs.msv → u.regs.near = s.regs.near →
    exec .pcIsValid u = .next { u with regs := { u.regs with result := 1, code := 0 } }

/-- 40_threshold.md R107: PC_DEFAULT. A violated precondition writes only STATUS; else O_* holds DefaultPC(m, n) and
CODE is 0, everything else unchanged (RESULT, SEG_* and both byte spaces among it); with its encoding, its corner
cases and its worked example. -/
def Obligations.PcDefaultDerivesThePreset : Prop :=
  decode 0x00000001 = .instr .pcDefault ∧
  (∀ s : State, s.regs.msv.toNat = 0 ∨ maxNear s.config s.regs.msv.toNat < s.regs.near.toNat →
    exec .pcDefault s = .next { s with regs := { s.regs with code := 2, fault := 1 } }) ∧
  (∀ s : State, s.regs.msv.toNat ≠ 0 → s.regs.near.toNat ≤ maxNear s.config s.regs.msv.toNat →
    exec .pcDefault s = .next
      { s with
        regs :=
          { s.regs with
            oMaxval := s.regs.msv
            oT1 := BitVec.ofNat 16 (defaultPc s.regs.msv.toNat s.regs.near.toNat).t1
            oT2 := BitVec.ofNat 16 (defaultPc s.regs.msv.toNat s.regs.near.toNat).t2
            oT3 := BitVec.ofNat 16 (defaultPc s.regs.msv.toNat s.regs.near.toNat).t3
            oReset := 64
            code := 0 } }) ∧
  defaultPc 1 0 = ⟨1, 1, 1, 1, 64⟩ ∧ defaultPc 127 0 = ⟨127, 2, 3, 10, 64⟩ ∧ defaultPc 128 0 = ⟨128, 3, 7, 21, 64⟩ ∧
  defaultPc 4095 0 = ⟨4095, 18, 67, 276, 64⟩ ∧ defaultPc 4096 0 = ⟨4096, 18, 67, 276, 64⟩ ∧
  defaultPc 65535 0 = ⟨65535, 18, 67, 276, 64⟩ ∧ defaultPc 255 127 = ⟨255, 128, 128, 128, 64⟩ ∧
  defaultPc 255 0 = ⟨255, 3, 7, 21, 64⟩

/-- 40_threshold.md R108: PC_ISDEFAULT writes RESULT = 1 exactly when all five P_* are 0, with CODE = 0, and nothing
else. It raises nothing. -/
def Obligations.PcIsDefaultTestsForAllZero : Prop :=
  decode 0x00000002 = .instr .pcIsDefault ∧
  ∀ s : State, exec .pcIsDefault s = .next
    { s with
      regs :=
        { s.regs with
          result :=
            if s.regs.pMaxval = 0 ∧ s.regs.pT1 = 0 ∧ s.regs.pT2 = 0 ∧ s.regs.pT3 = 0 ∧ s.regs.pReset = 0 then 1 else 0
          code := 0 } }

/-- 40_threshold.md R109, R110: PC_ISVALID writes RESULT = 1 exactly when all six checks of the legality chain hold (a
zero field is not checked, and the effective values are filled from DefaultPC of the effective MAXVAL), with CODE = 0,
and nothing else. It raises nothing. -/
def Obligations.PcIsValidTestsTheLegalityChain : Prop :=
  decode 0x00000003 = .instr .pcIsValid ∧
  ∀ s : State, ∃ b : BitVec 1, exec .pcIsValid s = .next { s with regs := { s.regs with result := b, code := 0 } } ∧
    (b = 1 ↔
      let mcv := s.regs.mcv.toNat
      let n := s.regs.near.toNat
      let maxval := s.regs.pMaxval.toNat
      let t1 := s.regs.pT1.toNat
      let t2 := s.regs.pT2.toNat
      let t3 := s.regs.pT3.toNat
      let reset := s.regs.pReset.toNat
      let em := if maxval = 0 then mcv else maxval
      let e1 := if t1 = 0 then (defaultPc em n).t1 else t1
      let e2 := if t2 = 0 then (defaultPc em n).t2 else t2
      (maxval = 0 ∨ 1 ≤ maxval ∧ maxval ≤ mcv) ∧ (t1 = 0 ∨ n + 1 ≤ t1 ∧ t1 ≤ em) ∧
      (t2 = 0 ∨ e1 ≤ t2 ∧ t2 ≤ em) ∧ (t3 = 0 ∨ e2 ≤ t3 ∧ t3 ≤ em) ∧
      (reset = 0 ∨ 3 ≤ reset ∧ reset ≤ max 255 em))

/-- 40_threshold.md R111: a zero field is not checked at all and a field is never checked against the fields after it:
clearing the last fields of a valid set, or all of any set, leaves it valid; and a valid set with zero fields need not
be monotone once its defaults are filled in. -/
def Obligations.ZeroFieldsAreNotChecked : Prop :=
  (∀ (c : PresetParams) (mcv n : Nat), isValid c mcv n = true →
    isValid { c with reset := 0 } mcv n = true ∧ isValid { c with t3 := 0 } mcv n = true ∧
    isValid { c with t2 := 0, t3 := 0 } mcv n = true ∧ isValid { c with t1 := 0, t2 := 0, t3 := 0 } mcv n = true) ∧
  (∀ mcv n : Nat, isValid ⟨0, 0, 0, 0, 0⟩ mcv n = true) ∧
  isValid ⟨0, 100, 0, 0, 0⟩ 255 0 = true ∧ (defaultPc 255 0).t2 = 7 ∧ (defaultPc 255 0).t3 = 21

/-- 70_reset_and_hazards.md R195: a host that changes none of P_* between PC_ISVALID and SEG_LSE emits exactly the set
it validated. PC_ISVALID answers RESULT = 1 exactly for a legal set and keeps P_*; every host action but a reset and a
write to P_MAXVAL to P_RESET keeps P_* (other commands and the read of RESULT among them); and in every state w that
still holds the P_* of s, SEG_LSE emits these five values, each with its high byte first. -/
def Obligations.ValidatedSetIsTheSetEmitted : Prop :=
  (∀ s t : State, exec .pcIsValid s = .next t →
    (t.regs.result = 1 ↔ isValid (candidate s.regs) s.regs.mcv.toNat s.regs.near.toNat = true) ∧
      candidate t.regs = candidate s.regs) ∧
  (∀ (s t : State) (a : HostAction), nextAction s = some a → a.keepsCandidate = true → step s = .next t →
    candidate t.regs = candidate s.regs) ∧
  (∀ s w : State, candidate w.regs = candidate s.regs →
    ∃ u, exec .segLse w = .next u ∧ u.regs.code = 0 ∧ u.regs.segCode = w.config.mcLse ∧ u.regs.segLen.toNat = 11 ∧
      segByte u 0 = 0x01 ∧
      256 * (segByte u 1).toNat + (segByte u 2).toNat = s.regs.pMaxval.toNat ∧
      256 * (segByte u 3).toNat + (segByte u 4).toNat = s.regs.pT1.toNat ∧
      256 * (segByte u 5).toNat + (segByte u 6).toNat = s.regs.pT2.toNat ∧
      256 * (segByte u 7).toNat + (segByte u 8).toNat = s.regs.pT3.toNat ∧
      256 * (segByte u 9).toNat + (segByte u 10).toNat = s.regs.pReset.toNat)

/-! ### Marker segments -/

/-- 41_segments.md R130: append8 appends one byte; append16be appends two, the most significant first. -/
def Obligations.AppendIsBigEndian : Prop :=
  (∀ (s : List Byte) (v : Byte), append8 s v = s ++ [v]) ∧
  (∀ (s : List Byte) (v : Half), ∃ a b : Byte, append16be s v = s ++ [a, b] ∧
    a.toNat = v.toNat / 256 ∧ b.toNat = v.toNat % 256) ∧
  append16be [] 0x1234 = [0x12, 0x34] ∧ append16be [] 4 = [0x00, 0x04]

/-- 30_encoding.md R76, 41_segments.md R133: SEG_SOF. A violated precondition writes only STATUS; else SEG_CODE is
MC_SOF, SEG_LEN 6 + 3*Nf, and the host reads precision, height, width, Nf and the triplets (id, 0x11, 0x00) for the ids
1 to Nf; every other register, THUMB and the host's side are unchanged. -/
def Obligations.SegSofBuildsFrameHeader : Prop :=
  decode 0x00000010 = .instr .segSof ∧
  (∀ s : State, s.regs.fBps.toNat = 0 ∨ s.regs.fNf.toNat = 0 ∨ 254 < s.regs.fNf.toNat →
    exec .segSof s = .next { s with regs := { s.regs with code := 2, fault := 1 } }) ∧
  (∀ s : State, s.regs.fBps.toNat ≠ 0 → s.regs.fNf.toNat ≠ 0 → s.regs.fNf.toNat ≤ 254 →
    let nf := s.regs.fNf.toNat
    ∃ t, exec .segSof s = .next t ∧ t =
        { s with
          regs := { s.regs with segCode := s.config.mcSof, segLen := BitVec.ofNat 18 (6 + 3 * nf), code := 0 }
          segBuf := t.segBuf } ∧
      segByte t 0 = s.regs.fBps ∧
      (segByte t 1).toNat = s.regs.fHeight.toNat / 256 ∧ (segByte t 2).toNat = s.regs.fHeight.toNat % 256 ∧
      (segByte t 3).toNat = s.regs.fWidth.toNat / 256 ∧ (segByte t 4).toNat = s.regs.fWidth.toNat % 256 ∧
      segByte t 5 = s.regs.fNf ∧
      ∀ i, 1 ≤ i → i ≤ nf → (segByte t (6 + 3 * (i - 1))).toNat = i ∧ segByte t (7 + 3 * (i - 1)) = 0x11 ∧
        segByte t (8 + 3 * (i - 1)) = 0x00)

/-- 30_encoding.md R77, 41_segments.md R134, R135: SEG_JFIF. A violated precondition writes only STATUS, whatever the
thumbnail; else, where the thumbnail check allows it (no width, or under INTENT a buffer supplied), SEG_CODE is
MC_APP0, SEG_LEN 14 + t with t = 0 without a width and 3*tw*th with one, and the host reads the fourteen header bytes
and then THUMB[0 .. t-1]; every other register, THUMB and the host's side are unchanged. Where it does not allow it the
command fails, as `JfifThumbnailPolicy` says. -/
def Obligations.SegJfifBuildsApp0 : Prop :=
  decode 0x00000011 = .instr .segJfif ∧
  (∀ s : State, 2 < s.regs.jUnits.toNat ∨ s.regs.jXdens.toNat = 0 ∨ s.regs.jYdens.toNat = 0 →
    exec .segJfif s = .next { s with regs := { s.regs with code := 2, fault := 1 } }) ∧
  (∀ s : State, s.regs.jUnits.toNat ≤ 2 → s.regs.jXdens.toNat ≠ 0 → s.regs.jYdens.toNat ≠ 0 →
    s.regs.jXthumb.toNat = 0 ∨ s.config.thumbPolicy = .intent ∧ s.regs.jTpres = 1 →
    let len := if s.regs.jXthumb.toNat = 0 then 0 else 3 * s.regs.jXthumb.toNat * s.regs.jYthumb.toNat
    ∃ t, exec .segJfif s = .next t ∧ t =
        { s with
          regs := { s.regs with segCode := s.config.mcApp0, segLen := BitVec.ofNat 18 (14 + len), code := 0 }
          segBuf := t.segBuf } ∧
      t.regs.segLen.toNat = 14 + len ∧
      segByte t 0 = 0x4A ∧ segByte t 1 = 0x46 ∧ segByte t 2 = 0x49 ∧ segByte t 3 = 0x46 ∧ segByte t 4 = 0x00 ∧
      (segByte t 5).toNat = s.regs.jVersion.toNat / 256 ∧ (segByte t 6).toNat = s.regs.jVersion.toNat % 256 ∧
      segByte t 7 = s.regs.jUnits ∧
      (segByte t 8).toNat = s.regs.jXdens.toNat / 256 ∧ (segByte t 9).toNat = s.regs.jXdens.toNat % 256 ∧
      (segByte t 10).toNat = s.regs.jYdens.toNat / 256 ∧ (segByte t 11).toNat = s.regs.jYdens.toNat % 256 ∧
      segByte t 12 = s.regs.jXthumb ∧ segByte t 13 = s.regs.jYthumb ∧
      ∀ a, a < len → segByte t (14 + a) = thumbByte s.thumb a) ∧
  (∀ s : State, 0 < s.regs.jXthumb.toNat → s.config.thumbPolicy = .asObserved ∨ s.regs.jTpres = 0 →
    ∃ t, exec .segJfif s = .next t ∧ (t.regs.code = 1 ∨ t.regs.code = 2))

/-- 41_segments.md R136: the thumbnail check, all four combinations under both policies, once the preconditions hold.
A raised outcome writes only STATUS. The default policy is INTENT. -/
def Obligations.JfifThumbnailPolicy : Prop :=
  defaultConfig.thumbPolicy = .intent ∧
  ∀ s : State, s.regs.jUnits.toNat ≤ 2 → s.regs.jXdens.toNat ≠ 0 → s.regs.jYdens.toNat ≠ 0 →
    (s.regs.jXthumb.toNat = 0 →
      ∃ t, exec .segJfif s = .next t ∧ t.regs.code = 0 ∧ t.regs.segLen.toNat = 14) ∧
    (0 < s.regs.jXthumb.toNat → s.regs.jTpres = 0 → s.config.thumbPolicy = .intent →
      exec .segJfif s = .next { s with regs := { s.regs with code := 1 } }) ∧
    (0 < s.regs.jXthumb.toNat → s.regs.jTpres = 1 → s.config.thumbPolicy = .intent →
      ∃ t, exec .segJfif s = .next t ∧ t.regs.code = 0 ∧
        t.regs.segLen.toNat = 14 + 3 * s.regs.jXthumb.toNat * s.regs.jYthumb.toNat) ∧
    (0 < s.regs.jXthumb.toNat → s.regs.jTpres = 0 → s.config.thumbPolicy = .asObserved →
      exec .segJfif s = .next { s with regs := { s.regs with code := 2, fault := 1 } }) ∧
    (0 < s.regs.jXthumb.toNat → s.regs.jTpres = 1 → s.config.thumbPolicy = .asObserved →
      exec .segJfif s = .next { s with regs := { s.regs with code := 1 } })

/-- 30_encoding.md R78, 41_segments.md R137: SEG_LSE completes in every state: SEG_CODE is MC_LSE, SEG_LEN 11, and the
host reads 0x01 and the five P_* values, each with its high byte first, unvalidated; every other register, THUMB and
the host's side are unchanged. -/
def Obligations.SegLseBuildsPresetParameters : Prop :=
  decode 0x00000012 = .instr .segLse ∧
  ∀ s : State, ∃ t, exec .segLse s = .next t ∧ t =
      { s with
        regs := { s.regs with segCode := s.config.mcLse, segLen := 11, code := 0 }
        segBuf := t.segBuf } ∧
    segByte t 0 = 0x01 ∧
    (segByte t 1).toNat = s.regs.pMaxval.toNat / 256 ∧ (segByte t 2).toNat = s.regs.pMaxval.toNat % 256 ∧
    (segByte t 3).toNat = s.regs.pT1.toNat / 256 ∧ (segByte t 4).toNat = s.regs.pT1.toNat % 256 ∧
    (segByte t 5).toNat = s.regs.pT2.toNat / 256 ∧ (segByte t 6).toNat = s.regs.pT2.toNat % 256 ∧
    (segByte t 7).toNat = s.regs.pT3.toNat / 256 ∧ (segByte t 8).toNat = s.regs.pT3.toNat % 256 ∧
    (segByte t 9).toNat = s.regs.pReset.toNat / 256 ∧ (segByte t 10).toNat = s.regs.pReset.toNat % 256

/-- 30_encoding.md R79, 41_segments.md R138: SEG_APP8 completes in every state: SEG_CODE is MC_APP8, SEG_LEN 5, and the
host reads the bytes of "mrfx" and XFORM verbatim; every other register, THUMB and the host's side are unchanged. -/
def Obligations.SegApp8BuildsColourTransform : Prop :=
  decode 0x00000013 = .instr .segApp8 ∧
  ∀ s : State, ∃ t, exec .segApp8 s = .next t ∧ t =
      { s with
        regs := { s.regs with segCode := s.config.mcApp8, segLen := 5, code := 0 }
        segBuf := t.segBuf } ∧
    segByte t 0 = 0x6D ∧ segByte t 1 = 0x72 ∧ segByte t 2 = 0x66 ∧ segByte t 3 = 0x78 ∧ segByte t 4 = s.regs.xform

/-- 30_encoding.md R80, 41_segments.md R139: SEG_SOS. With c = sext(S_CIDX): c > 255 writes only STATUS; c < 0 gives the
all-components form with the ids 1 to Ns; 0 <= c <= 255 gives the single-component form, in which S_NS is not read.
Both end with NEAR, the interleave mode and 0x00; every other register, THUMB and the host's side are unchanged. -/
def Obligations.SegSosBuildsScanHeader : Prop :=
  decode 0x00000014 = .instr .segSos ∧
  (∀ s : State, 255 < s.regs.sCidx.toInt →
    exec .segSos s = .next { s with regs := { s.regs with code := 2, fault := 1 } }) ∧
  (∀ s : State, s.regs.sCidx.toInt < 0 →
    let ns := s.regs.sNs.toNat
    ∃ t, exec .segSos s = .next t ∧ t =
        { s with
          regs := { s.regs with segCode := s.config.mcSos, segLen := BitVec.ofNat 18 (4 + 2 * ns), code := 0 }
          segBuf := t.segBuf } ∧
      segByte t 0 = s.regs.sNs ∧
      (∀ i, i < ns → (segByte t (1 + 2 * i)).toNat = i + 1 ∧ segByte t (2 + 2 * i) = 0x00) ∧
      segByte t (1 + 2 * ns) = s.regs.near ∧ segByte t (2 + 2 * ns) = s.regs.sIlv ∧ segByte t (3 + 2 * ns) = 0x00) ∧
  (∀ s : State, 0 ≤ s.regs.sCidx.toInt → s.regs.sCidx.toInt ≤ 255 →
    ∃ t, exec .segSos s = .next t ∧ t =
        { s with
          regs := { s.regs with segCode := s.config.mcSos, segLen := 6, code := 0 }
          segBuf := t.segBuf } ∧
      segByte t 0 = 0x01 ∧ ((segByte t 1).toNat : Int) = s.regs.sCidx.toInt ∧ segByte t 2 = 0x00 ∧
      segByte t 3 = s.regs.near ∧ segByte t 4 = s.regs.sIlv ∧ segByte t 5 = 0x00)

/-- 30_encoding.md R81, 00_scope.md R6: the content length of each segment command that succeeds, with the minimum and
the maximum it keeps to; the largest, that of SEG_JFIF with a 255 x 255 thumbnail, is SEG_CAP, and it is reached. -/
def Obligations.ContentLengths : Prop :=
  (∀ s t : State, exec .segSof s = .next t → t.regs.code = 0 →
    t.regs.segLen.toNat = 6 + 3 * s.regs.fNf.toNat ∧ 9 ≤ t.regs.segLen.toNat ∧ t.regs.segLen.toNat ≤ 768) ∧
  (∀ s t : State, exec .segJfif s = .next t → t.regs.code = 0 →
    t.regs.segLen.toNat =
      14 + (if s.regs.jXthumb.toNat = 0 then 0 else 3 * s.regs.jXthumb.toNat * s.regs.jYthumb.toNat) ∧
    14 ≤ t.regs.segLen.toNat ∧ t.regs.segLen.toNat ≤ 195089) ∧
  (∀ s t : State, exec .segLse s = .next t → t.regs.segLen.toNat = 11) ∧
  (∀ s t : State, exec .segApp8 s = .next t → t.regs.segLen.toNat = 5) ∧
  (∀ s t : State, exec .segSos s = .next t → t.regs.code = 0 →
    t.regs.segLen.toNat = (if s.regs.sCidx.toInt < 0 then 4 + 2 * s.regs.sNs.toNat else 6) ∧
    4 ≤ t.regs.segLen.toNat ∧ t.regs.segLen.toNat ≤ 514) ∧
  segCap = 195089 ∧
  ∃ s t : State, exec .segJfif s = .next t ∧ t.regs.code = 0 ∧ t.regs.segLen.toNat = segCap

/-! ### Which command writes what -/

/-- 10_state.md R31: a PC_DEFAULT that ends with CODE = 0 leaves in O_* the five fields of the set it derived; every
other command and outcome leaves O_* unchanged. -/
def Obligations.OnlyPcDefaultWritesTheDerivedSet : Prop :=
  ∀ (i : Instr) (s t : State), exec i s = .next t →
    (i = .pcDefault → t.regs.code = 0 →
      t.regs.oMaxval.toNat = s.regs.msv.toNat ∧
      t.regs.oT1.toNat = (defaultPc s.regs.msv.toNat s.regs.near.toNat).t1 ∧
      t.regs.oT2.toNat = (defaultPc s.regs.msv.toNat s.regs.near.toNat).t2 ∧
      t.regs.oT3.toNat = (defaultPc s.regs.msv.toNat s.regs.near.toNat).t3 ∧ t.regs.oReset.toNat = 64) ∧
    (i ≠ .pcDefault ∨ t.regs.code ≠ 0 →
      t.regs.oMaxval = s.regs.oMaxval ∧ t.regs.oT1 = s.regs.oT1 ∧ t.regs.oT2 = s.regs.oT2 ∧
      t.regs.oT3 = s.regs.oT3 ∧ t.regs.oReset = s.regs.oReset)

/-- 10_state.md R32: only PC_ISDEFAULT and PC_ISVALID write RESULT, both with CODE = 0, 1 for true and 0 for false; no
command reads RESULT; its reset value is 0. -/
def Obligations.OnlyTheTestsWriteResult : Prop :=
  (∀ (i : Instr) (s t : State), exec i s = .next t →
    (i = .pcIsDefault → t.regs.code = 0 ∧ (t.regs.result = 1 ↔ isDefault (candidate s.regs) = true)) ∧
    (i = .pcIsValid → t.regs.code = 0 ∧
      (t.regs.result = 1 ↔ isValid (candidate s.regs) s.regs.mcv.toNat s.regs.near.toNat = true)) ∧
    (i ≠ .pcIsDefault → i ≠ .pcIsValid → t.regs.result = s.regs.result)) ∧
  (∀ (i : Instr) (s t : State) (b : BitVec 1), exec i s = .next t →
    ∃ u, exec i { s with regs := { s.regs with result := b } } = .next u ∧
      { u with regs := { u.regs with result := t.regs.result } } = t) ∧
  State.reset.regs.result = 0

/-- 10_state.md R33: a segment command that ends with CODE = 0 leaves its marker code in SEG_CODE and the length of the
content it built in SEG_LEN, at most SEG_CAP, and the host reads that content; one that raises, and every command of the
other family, writes neither, and SEG_BUF is unchanged too. -/
def Obligations.SegmentRegistersFollowTheLastSegment : Prop :=
  ∀ (i : Instr) (s t : State), exec i s = .next t →
    (buildsSegment i = true → t.regs.code = 0 →
      t.regs.segCode = markerCode s.config i ∧ t.regs.segLen.toNat = (builtContent i s).length ∧
      t.regs.segLen.toNat ≤ segCap ∧ t.segment = builtContent i s ∧
      ∀ k, k < t.regs.segLen.toNat → t.segBuf.get? k = (builtContent i s)[k]?) ∧
    (buildsSegment i = false ∨ t.regs.code ≠ 0 →
      t.regs.segCode = s.regs.segCode ∧ t.regs.segLen = s.regs.segLen ∧ t.segBuf = s.segBuf)

/-- The frame of every command (00_scope.md R10, 60_exceptions.md R161, 10_state.md R31 to R33): CMD, every operand
register, THUMB, the parameters and the host's side are unchanged; the bytes a segment command stores are those at the
offsets 0 to SEG_LEN - 1; a command of the other family, and one that raises, stores nothing. R34, R55 and R58 leave the
bytes at and above SEG_LEN unspecified: that the stored list keeps them is the model's choice (log entry 5), and so is
that exec alone draws no new free byte (log entries 3 and 4). -/
def Obligations.CommandFrame : Prop :=
  ∀ (i : Instr) (s t : State), exec i s = .next t →
    t = { s with
          regs :=
            { s.regs with
              code := t.regs.code
              fault := t.regs.fault
              oMaxval := t.regs.oMaxval
              oT1 := t.regs.oT1
              oT2 := t.regs.oT2
              oT3 := t.regs.oT3
              oReset := t.regs.oReset
              result := t.regs.result
              segCode := t.regs.segCode
              segLen := t.regs.segLen }
          segBuf := t.segBuf } ∧
    (∀ k, t.regs.segLen.toNat ≤ k ∨ buildsSegment i = false ∨ t.regs.code ≠ 0 →
      t.segBuf.get? k = s.segBuf.get? k) ∧
    (buildsSegment i = false ∨ t.regs.code ≠ 0 → ∀ k, segByte t k = segByte s k)

/-- 10_state.md R20, 30_encoding.md R74: a command's outcome and results depend on the operand registers it reads, the
parameters and, for SEG_JFIF, THUMB alone; nothing from an earlier command changes them. -/
def Obligations.CommandsDependOnlyOnOperands : Prop :=
  ∀ (i : Instr) (s u : State), operandsAgree i s.regs u.regs → s.config = u.config →
    (i = .segJfif → ∀ a, a < thumbCap → thumbByte s.thumb a = thumbByte u.thumb a) →
    ∃ t v, exec i s = .next t ∧ exec i u = .next v ∧ t.regs.code = v.regs.code ∧
      (t.regs.code = 0 → resultsAgree i t v)

/-- 10_state.md R23: a CMD write stores the word and reads it back whatever the outcome, and every command is
idempotent on the register file: performed again with the operand registers it left, it changes no register. Nor does it
change SEG_BUF: by 00_scope.md R10 it emits the same content below SEG_LEN; above it the stored list is the model's own
(log entry 5). -/
def Obligations.CommandsAreIdempotent : Prop :=
  (∀ (s : State) (w : Word), nextAction s = some (.wr cmdIndex w) →
    ∃ t, step s = .next t ∧ readIndex t.regs 0x00 = w) ∧
  (∀ (i : Instr) (s t : State), exec i s = .next t → exec i t = .next t)

/-- 00_scope.md R10, `emit`: storing a content is one MemWrite(SEG_BUF, k, 1, s[k]) for each k < len(s), in turn. -/
def Obligations.EmitStoresByteByByte : Prop :=
  ∀ (m : Memory) (content : List Byte), m.wf →
    m.store content = (List.range content.length).foldl (fun m k => m.write k (content.getD k 0)) m

/-! ### The host's accesses -/

/-- 20_memory.md R58: a host read of SEG_BUF returns the content byte below SEG_LEN, completes with some byte (a free
draw, whatever it is) from SEG_LEN up to SEG_CAP - 1, and is refused from SEG_CAP on. -/
def Obligations.SegBufReads : Prop :=
  (∀ (s : State) (k : Nat), nextAction s = some (.rdb k) → s.Inv → k < s.regs.segLen.toNat →
    ∃ b, s.segBuf.get? k = some b ∧
      step s = .next { s with hostIndex := s.hostIndex + 1, observed := .segByte k b :: s.observed }) ∧
  (∀ (s : State) (k : Nat), nextAction s = some (.rdb k) → s.regs.segLen.toNat ≤ k → k < segCap →
    ∃ b, step s = .next { s with hostIndex := s.hostIndex + 1, observed := .segByte k b :: s.observed }) ∧
  (∀ (s : State) (k : Nat), nextAction s = some (.rdb k) → segCap ≤ k →
    step s = .refused (.segBufOffsetOutOfRange k))

/-- 20_memory.md R55, 30_encoding.md R82: `rd` and `skipz` give the host the register's value, which the model records
in `observed` (log entry 9); a step that reads (`rd`, `rdb`, `skipz`) leaves every register, SEG_BUF, THUMB and what any
read of SEG_BUF returns as they were, so a repeated read returns the same value (the free draws too, log entry 3). -/
def Obligations.ReadsHaveNoSideEffect : Prop :=
  (∀ (s : State) (idx : Byte), (nextAction s = some (.rd idx) ∨ ∃ k, nextAction s = some (.skipz idx k)) →
    ∃ t, step s = .next t ∧ t.observed = .register idx (readIndex s.regs idx) :: s.observed) ∧
  (∀ (s t : State) (a : HostAction), nextAction s = some a → step s = .next t →
    ((∃ idx, a = .rd idx) ∨ (∃ k, a = .rdb k) ∨ (∃ idx k, a = .skipz idx k)) →
    t.regs = s.regs ∧ t.segBuf = s.segBuf ∧ t.thumb = s.thumb ∧ t.drawEpoch = s.drawEpoch ∧
      ∀ k, segByte t k = segByte s k)

/-- 10_state.md R34, 20_memory.md R57, 90_conflicts.md C1: a segment stays intact, as the host reads it, through every
step that is neither a CMD write nor a reset: operand writes and THUMB writes never change it. -/
def Obligations.SegmentSurvivesHostAccesses : Prop :=
  ∀ s t : State, s.Inv → step s = .next t → nextAction s ≠ some .reset →
    (∀ w, nextAction s ≠ some (.wr cmdIndex w)) → t.regs.segLen = s.regs.segLen ∧ t.segment = s.segment

/-- 20_memory.md R57, 60_exceptions.md R172: `wrt a, b` always completes and changes nothing of the block; below
THUMB_CAP it sets the byte the block will read at THUMB[a] and no other; at or above THUMB_CAP there is no such offset
(R50), and that the write then changes no byte is the model's choice (log entry 7). -/
def Obligations.ThumbWrites : Prop :=
  ∀ (s : State) (a : Nat) (b : Byte), nextAction s = some (.wrt a b) →
    ∃ t, step s = .next t ∧ t.regs = s.regs ∧ t.segBuf = s.segBuf ∧ t.config = s.config ∧
      (a < thumbCap → ∀ j, thumbByte t.thumb j = if j = a then b else thumbByte s.thumb j) ∧
      (thumbCap ≤ a → t.thumb = s.thumb)

/-- 10_state.md R35: each action moves the host's index by 1, or by 1 + k for a `skipz NAME, k` whose register reads 0,
and no step changes the host's program. -/
def Obligations.HostIndexAdvances : Prop :=
  ∀ (s t : State) (a : HostAction), nextAction s = some a → step s = .next t →
    t.program = s.program ∧
    t.hostIndex = s.hostIndex +
      match a with
      | .skipz idx k => if readIndex s.regs idx = 0 then 1 + k else 1
      | _ => 1

/-- 60_exceptions.md R177, 00_scope.md R13: with no host action left a step changes nothing. -/
def Obligations.IdleBlockHoldsItsState : Prop :=
  ∀ s : State, s.program.length ≤ s.hostIndex → step s = .next s

/-- 60_exceptions.md R172, 20_memory.md R58: the only refused access is a SEG_BUF read at or above SEG_CAP. A step answers
a next state in every other case: no register access, THUMB write, command, skip or reset stops it. That a THUMB write at
or above THUMB_CAP completes too is the model's reading of R172 and R64 (log entry 7). -/
def Obligations.StepStopsOnlyOnMissingOffsets : Prop :=
  (∀ s : State, (∃ t, step s = .next t) ↔ ∀ k, nextAction s = some (.rdb k) → k < segCap) ∧
  (∀ (s : State) (r : Refusal), step s = .refused r ↔
    ∃ k, nextAction s = some (.rdb k) ∧ segCap ≤ k ∧ r = .segBufOffsetOutOfRange k)

/-- 70_reset_and_hazards.md R193: the commands issued as the first action after reset. -/
def Obligations.FirstCommandsAfterReset : Prop :=
  (∃ t, step (State.reset.withFetchWord 32 0x01) = .next t ∧ t.regs.code = 2 ∧ t.regs.fault = 1) ∧
  (∃ t, step (State.reset.withFetchWord 32 0x02) = .next t ∧ t.regs.code = 0 ∧ t.regs.result = 1) ∧
  (∃ t, step (State.reset.withFetchWord 32 0x03) = .next t ∧ t.regs.code = 0 ∧ t.regs.result = 1) ∧
  (∃ t, step (State.reset.withFetchWord 32 0x10) = .next t ∧ t.regs.code = 2) ∧
  (∃ t, step (State.reset.withFetchWord 32 0x11) = .next t ∧ t.regs.code = 2) ∧
  (∃ t, step (State.reset.withFetchWord 32 0x12) = .next t ∧ t.segment = [1, 0, 0, 0, 0, 0, 0, 0, 0, 0, 0]) ∧
  (∃ t, step (State.reset.withFetchWord 32 0x13) = .next t ∧ t.segment = [0x6D, 0x72, 0x66, 0x78, 0x00]) ∧
  (∃ t, step (State.reset.withFetchWord 32 0x14) = .next t ∧ t.segment = [1, 0, 0, 0, 0, 0])

/-- 30_encoding.md R83, 70_reset_and_hazards.md R197: only SEG_JFIF can build a content too long to frame, exactly with
a thumbnail of more than 65519 bytes; a content that can be framed has the bytes 0xFF, code, the big-endian length
2 + len and then the content. -/
def Obligations.OnlyLargeThumbnailsCannotBeFramed : Prop :=
  (∀ (i : Instr) (s t : State), exec i s = .next t → buildsSegment i = true → t.regs.code = 0 →
    (t.framable = false ↔
      i = .segJfif ∧ s.regs.jXthumb.toNat ≠ 0 ∧ 65519 < 3 * s.regs.jXthumb.toNat * s.regs.jYthumb.toNat)) ∧
  (∀ (code : Byte) (content : List Byte), 65533 < content.length → frameSegment code content = none) ∧
  (∀ (code : Byte) (content : List Byte), content.length ≤ 65533 →
    ∃ a b : Byte, frameSegment code content = some ([0xFF, code, a, b] ++ content) ∧
      256 * a.toNat + b.toNat = 2 + content.length)
end

