-- ==== Sys2Proof/Laws/Decode.lean ====
section
/-! SUPPORT. The fields of a command word as numbers, and when a word selects a command. -/

namespace Sys2Proof

theorem opField_toNat (w : Word) : (opField w).toNat = w.toNat % 256 := by
  simp [opField, BitVec.extractLsb'_toNat]

theorem rsvField_toNat (w : Word) : (rsvField w).toNat = w.toNat / 256 := by
  have := w.isLt
  simp only [rsvField, BitVec.extractLsb'_toNat, Nat.shiftRight_eq_div_pow]
  omega

/-- The opcode map and its inverse agree (30_encoding.md R71). -/
theorem instrOfOpcode_eq_some (op : Byte) (i : Instr) : instrOfOpcode op = some i ↔ op = opcode i := by
  cases i <;> revert op <;> decide

/-- The words that select a command, by their fields (30_encoding.md R70, R71). -/
theorem decode_eq_instr (w : Word) (i : Instr) : decode w = .instr i ↔ rsvField w = 0 ∧ opField w = opcode i := by
  unfold decode
  by_cases hr : rsvField w = 0
  · rw [if_neg (not_not.2 hr)]
    cases ho : instrOfOpcode (opField w) with
    | none =>
      have : opField w ≠ opcode i := fun h => by
        rw [(instrOfOpcode_eq_some _ i).2 h] at ho
        cases ho
      simp [this]
    | some j =>
      have hj := (instrOfOpcode_eq_some _ j).1 ho
      constructor
      · intro h
        cases h
        exact ⟨hr, hj⟩
      · rintro ⟨-, hi⟩
        rw [(instrOfOpcode_eq_some _ i).2 hi] at ho
        cases ho
        rfl
  · rw [if_pos hr]
    constructor
    · intro h
      cases h
    · intro h
      exact absurd h.1 hr

/-- A word is its two fields (30_encoding.md R70). -/
theorem word_ext_fields {w v : Word} (hr : rsvField w = rsvField v) (ho : opField w = opField v) : w = v := by
  have h1 : w.toNat / 256 = v.toNat / 256 := by rw [← rsvField_toNat, ← rsvField_toNat, hr]
  have h2 : w.toNat % 256 = v.toNat % 256 := by rw [← opField_toNat, ← opField_toNat, ho]
  exact BitVec.eq_of_toNat_eq (by omega)

end Sys2Proof
end

