-- ==== Sys2Proof/Laws/Segments.lean ====
section
/-! SUPPORT. The five contents as plain byte lists: one equation and one length for each. -/

namespace Sys2Proof.Machine

theorem foldl_append_eq_flatMap {α : Type} (f : α → List Byte) (l : List α) (s : List Byte) :
    l.foldl (fun s x => s ++ f x) s = s ++ l.flatMap f := by
  induction l generalizing s with
  | nil => simp
  | cons x l ih => simp [ih]

/-- The component triplets of a start-of-frame content for ids 1 .. n. -/
def sofTriplets (n : Nat) : List Byte := (List.range' 1 n).flatMap fun i => [BitVec.ofNat 8 i, 0x11, 0x00]

/-- The component pairs of an all-components start-of-scan content for ids 1 .. n. -/
def sosPairs (n : Nat) : List Byte := (List.range n).flatMap fun i => [BitVec.ofNat 8 (i + 1), 0x00]

theorem sofContent_eq (r : Regs) : sofContent r =
    [r.fBps, hi8 r.fHeight, lo8 r.fHeight, hi8 r.fWidth, lo8 r.fWidth, r.fNf] ++ sofTriplets r.fNf.toNat := by
  have := foldl_append_eq_flatMap (fun i : Nat => [BitVec.ofNat 8 i, (0x11 : Byte), 0x00])
    (List.range' 1 r.fNf.toNat) [r.fBps, hi8 r.fHeight, lo8 r.fHeight, hi8 r.fWidth, lo8 r.fWidth, r.fNf]
  simpa [sofContent, append8, append16be, sofTriplets] using this

theorem sosComponents_eq (r : Regs) : sosComponents r =
    if scanIndex r < 0 then r.sNs :: sosPairs r.sNs.toNat else [0x01, lo8 r.sCidx, 0x00] := by
  have := foldl_append_eq_flatMap (fun i : Nat => [BitVec.ofNat 8 (i + 1), (0x00 : Byte)])
    (List.range r.sNs.toNat) [r.sNs]
  simp only [List.cons_append, List.nil_append] at this
  simp only [sosComponents, append8, List.nil_append, List.append_assoc, List.cons_append, sosPairs, this]

theorem sosContent_eq (r : Regs) : sosContent r = sosComponents r ++ [r.near, r.sIlv, 0x00] := by
  simp [sosContent, append8]

theorem jfifContent_eq (r : Regs) (m : Memory) (t : Nat) : jfifContent r m t =
    [0x4A, 0x46, 0x49, 0x46, 0x00, hi8 r.jVersion, lo8 r.jVersion, r.jUnits, hi8 r.jXdens, lo8 r.jXdens,
      hi8 r.jYdens, lo8 r.jYdens, r.jXthumb, r.jYthumb] ++ thumbBytes m t := by
  simp [jfifContent, append8, append16be, jfifIdentifier]

theorem lseContent_eq (r : Regs) : lseContent r =
    [0x01, hi8 r.pMaxval, lo8 r.pMaxval, hi8 r.pT1, lo8 r.pT1, hi8 r.pT2, lo8 r.pT2, hi8 r.pT3, lo8 r.pT3,
      hi8 r.pReset, lo8 r.pReset] := by
  simp [lseContent, append8, append16be]

theorem app8Content_eq (r : Regs) : app8Content r = [0x6D, 0x72, 0x66, 0x78, r.xform] := by
  simp [app8Content, append8, mrfxSignature]

theorem length_flatMap_const {α : Type} (f : α → List Byte) (k : Nat) (hf : ∀ x, (f x).length = k) (l : List α) :
    (l.flatMap f).length = k * l.length := by
  induction l with
  | nil => simp
  | cons x l ih => simp [ih, hf, Nat.mul_add, Nat.add_comm]

/-- The bytes of the block an element of the list becomes, when every block has the same length. -/
theorem getElem?_flatMap_const {α : Type} (f : α → List Byte) (k : Nat) (hf : ∀ x, (f x).length = k) (l : List α)
    (i j : Nat) (hj : j < k) (x : α) (hx : l[i]? = some x) : (l.flatMap f)[k * i + j]? = (f x)[j]? := by
  induction l generalizing i with
  | nil => simp at hx
  | cons y l ih =>
    cases i with
    | zero =>
      obtain rfl : y = x := by simpa using hx
      rw [List.flatMap_cons, List.getElem?_append_left (by rw [hf]; omega)]
      simp
    | succ i =>
      rw [List.flatMap_cons, List.getElem?_append_right (by rw [hf]; nlinarith), hf,
        show k * (i + 1) + j - k = k * i + j by rw [Nat.mul_succ]; omega]
      exact ih i (by simpa using hx)

@[simp] theorem sofTriplets_length (n : Nat) : (sofTriplets n).length = 3 * n := by
  rw [sofTriplets, length_flatMap_const _ 3 (fun _ => rfl), List.length_range']

@[simp] theorem sosPairs_length (n : Nat) : (sosPairs n).length = 2 * n := by
  rw [sosPairs, length_flatMap_const _ 2 (fun _ => rfl), List.length_range]

theorem sofTriplets_getElem? {n i j : Nat} (hi : i < n) (hj : j < 3) :
    (sofTriplets n)[3 * i + j]? = [BitVec.ofNat 8 (i + 1), (0x11 : Byte), 0x00][j]? := by
  have hx : (List.range' 1 n)[i]? = some (i + 1) := by simp [hi, Nat.add_comm]
  exact getElem?_flatMap_const _ 3 (fun _ => rfl) _ i j hj _ hx

theorem sosPairs_getElem? {n i j : Nat} (hi : i < n) (hj : j < 2) :
    (sosPairs n)[2 * i + j]? = [BitVec.ofNat 8 (i + 1), (0x00 : Byte)][j]? := by
  have hx : (List.range n)[i]? = some i := by simp [hi]
  exact getElem?_flatMap_const _ 2 (fun _ => rfl) _ i j hj _ hx

@[simp] theorem thumbBytes_length (m : Memory) (t : Nat) : (thumbBytes m t).length = t := by simp [thumbBytes]

theorem thumbBytes_getElem? (m : Memory) {t a : Nat} (h : a < t) : (thumbBytes m t)[a]? = some (thumbByte m a) := by
  simp [thumbBytes, h]

@[simp] theorem sofContent_length (r : Regs) : (sofContent r).length = 6 + 3 * r.fNf.toNat := by
  rw [sofContent_eq]; simp; omega

@[simp] theorem jfifContent_length (r : Regs) (m : Memory) (t : Nat) : (jfifContent r m t).length = 14 + t := by
  rw [jfifContent_eq]; simp; omega

@[simp] theorem lseContent_length (r : Regs) : (lseContent r).length = 11 := by rw [lseContent_eq]; rfl

@[simp] theorem app8Content_length (r : Regs) : (app8Content r).length = 5 := by rw [app8Content_eq]; rfl

@[simp] theorem sosContent_length (r : Regs) :
    (sosContent r).length = if scanIndex r < 0 then 4 + 2 * r.sNs.toNat else 6 := by
  rw [sosContent_eq, sosComponents_eq]
  split
  · simp; omega
  · rfl

/-! ### The thumbnail check, one equation per row of 41_segments.md R136 -/

theorem thumbLen_noWidth (p : ThumbPolicy) (th : Nat) (tp : Bool) : thumbLen p 0 th tp = .copy 0 := rfl

theorem thumbLen_intent_absent {tw : Nat} (h : tw ≠ 0) (th : Nat) :
    thumbLen .intent tw th false = .raises .invalidParameters := if_neg h

theorem thumbLen_intent_supplied {tw : Nat} (h : tw ≠ 0) (th : Nat) :
    thumbLen .intent tw th true = .copy (3 * tw * th) := if_neg h

theorem thumbLen_observed_absent {tw : Nat} (h : tw ≠ 0) (th : Nat) :
    thumbLen .asObserved tw th false = .raises .contractViolation := if_neg h

theorem thumbLen_observed_supplied {tw : Nat} (h : tw ≠ 0) (th : Nat) :
    thumbLen .asObserved tw th true = .raises .invalidParameters := if_neg h

/-- When the precondition of SEG_SOF fails, on the numbers its registers hold. -/
theorem sofViolates_iff (r : Regs) : sofViolates r = true ↔
    r.fBps.toNat = 0 ∨ r.fNf.toNat = 0 ∨ 254 < r.fNf.toNat := by
  simp [sofViolates, BitVec.toNat_eq, or_assoc]

/-- When the precondition of SEG_JFIF fails, on the numbers its registers hold. -/
theorem jfifViolates_iff (r : Regs) : jfifViolates r = true ↔
    2 < r.jUnits.toNat ∨ r.jXdens.toNat = 0 ∨ r.jYdens.toNat = 0 := by
  simp [jfifViolates, BitVec.toNat_eq, or_assoc]

/-- When the precondition of SEG_SOS fails. -/
theorem sosViolates_iff (r : Regs) : sosViolates r = true ↔ 255 < r.sCidx.toInt := by
  simp [sosViolates, scanIndex]

/-- The two bytes of a 16-bit field as numbers. -/
@[simp] theorem hi8_toNat (v : Half) : (hi8 v).toNat = v.toNat / 256 := by
  have := v.isLt
  simp only [hi8, BitVec.extractLsb'_toNat, Nat.shiftRight_eq_div_pow]
  omega

@[simp] theorem lo8_toNat (v : Half) : (lo8 v).toNat = v.toNat % 256 := by
  simp [lo8, BitVec.extractLsb'_toNat]

/-- Everything the thumbnail check can answer with a copy: a length that fits THUMB. -/
theorem thumbLen_copy {p : ThumbPolicy} {tw th t : Nat} {tp : Bool} (hw : tw ≤ 255) (hh : th ≤ 255)
    (h : thumbLen p tw th tp = .copy t) : t ≤ thumbCap := by
  unfold thumbLen at h
  split at h
  · cases h; exact Nat.zero_le _
  · split at h <;> cases h
    calc 3 * tw * th ≤ 3 * 255 * 255 := Nat.mul_le_mul (Nat.mul_le_mul_left 3 hw) hh
      _ = thumbCap := rfl

/-- A copy the thumbnail check allows has the length of 41_segments.md R135, under either policy. -/
theorem thumbLen_copy_length {p : ThumbPolicy} {tw th t : Nat} {tp : Bool} (h : thumbLen p tw th tp = .copy t) :
    t = if tw = 0 then 0 else 3 * tw * th := by
  unfold thumbLen at h
  split at h
  · rename_i h0; cases h; rw [if_pos h0]
  · rename_i h0; rw [if_neg h0]; split at h <;> cases h; rfl

/-- The thumbnail check never raises IllegalCommand and never raises OK. -/
theorem thumbLen_raises {p : ThumbPolicy} {tw th : Nat} {tp : Bool} {o : CommandOutcome}
    (h : thumbLen p tw th tp = .raises o) : o = .invalidParameters ∨ o = .contractViolation := by
  unfold thumbLen at h
  split at h
  · cases h
  · split at h <;> cases h <;> simp

end Sys2Proof.Machine
end

