-- ==== Sys2Proof/Laws/Memory.lean ====
section
/-! SUPPORT. The laws of the byte spaces: reads after writes, and that every operation keeps the canonical form. -/

namespace Sys2Proof.Machine

@[simp] theorem Memory.get?_nil (k : Nat) : Memory.get? [] k = none := rfl

theorem Memory.get?_cons (c : Host.Cell) (m : Memory) (k : Nat) :
    Memory.get? (c :: m) k = if c.1 = k then some c.2 else Memory.get? m k := rfl

theorem Memory.get?_append (m m' : Memory) (k : Nat) :
    Memory.get? (m ++ m') k = (Memory.get? m k).or (Memory.get? m' k) := by
  induction m with
  | nil => simp
  | cons c m ih =>
    rw [List.cons_append, Memory.get?_cons, Memory.get?_cons, ih]
    split <;> simp

theorem Memory.get?_filter_ge (m : Memory) (n k : Nat) :
    Memory.get? (m.filter fun c => decide (n ≤ c.1)) k = if n ≤ k then Memory.get? m k else none := by
  induction m with
  | nil => simp
  | cons c m ih =>
    by_cases hc : n ≤ c.1
    · rw [List.filter_cons_of_pos (by simpa using hc), Memory.get?_cons, Memory.get?_cons, ih]
      by_cases hk : c.1 = k
      · subst hk; simp [hc]
      · simp [hk]
    · rw [List.filter_cons_of_neg (by simpa using hc), ih, Memory.get?_cons]
      by_cases hk : c.1 = k
      · subst hk; simp [hc]
      · simp [hk]

theorem Memory.get?_cells (a : Nat) (s : List Byte) (k : Nat) :
    Memory.get? (Memory.cells a s) k = if a ≤ k then s[k - a]? else none := by
  induction s generalizing a with
  | nil => simp [Memory.cells]
  | cons b s ih =>
    rw [Memory.cells, Memory.get?_cons, ih]
    rcases Nat.lt_trichotomy a k with h | h | h
    · have : k - a = (k - (a + 1)) + 1 := by omega
      simp only [show a ≠ k by omega, if_false, show a + 1 ≤ k by omega, show a ≤ k by omega, if_true]
      rw [this, List.getElem?_cons_succ]
    · subst h; simp
    · simp only [show a ≠ k by omega, show ¬ a + 1 ≤ k by omega, show ¬ a ≤ k by omega, if_false]

/-- A bulk store read back: the stored byte inside the stored range, the old byte outside it. -/
theorem Memory.get?_store (m : Memory) (s : List Byte) (k : Nat) :
    (m.store s).get? k = if k < s.length then s[k]? else m.get? k := by
  rw [Memory.store, Memory.get?_append, Memory.get?_cells, Memory.get?_filter_ge]
  by_cases h : k < s.length
  · simp [h]
  · simp [h, Nat.le_of_not_lt h]

/-- A byte store read back. -/
theorem Memory.get?_write (m : Memory) (k : Nat) (v : Byte) (j : Nat) :
    (m.write k v).get? j = if k = j then some v else m.get? j := by
  induction m with
  | nil => simp [Memory.write, Memory.get?]
  | cons c m ih =>
    obtain ⟨a, b⟩ := c
    simp only [Memory.write]
    split
    · rfl
    · split
      · subst_vars
        simp only [Memory.get?]
        split <;> rfl
      · simp only [Memory.get?, ih]
        split <;> split <;> first | rfl | omega

theorem Memory.mem_write {m : Memory} {k : Nat} {v : Byte} {c : Host.Cell} (h : c ∈ m.write k v) :
    c = (k, v) ∨ c ∈ m := by
  induction m with
  | nil => simpa [Memory.write] using h
  | cons d m ih =>
    obtain ⟨a, b⟩ := d
    simp only [Memory.write] at h
    split at h
    · simpa using h
    · split at h
      · rcases List.mem_cons.1 h with h | h
        · exact .inl h
        · exact .inr (List.mem_cons_of_mem _ h)
      · rcases List.mem_cons.1 h with h | h
        · exact .inr (h ▸ List.mem_cons_self)
        · exact (ih h).imp id (List.mem_cons_of_mem _)

/-- A byte store keeps the canonical form. -/
theorem Memory.wf_write {m : Memory} (hm : m.wf) (k : Nat) (v : Byte) : (m.write k v).wf := by
  induction m with
  | nil => simp [Memory.write, Memory.wf]
  | cons d m ih =>
    obtain ⟨a, b⟩ := d
    obtain ⟨hd, ht⟩ := List.pairwise_cons.1 hm
    simp only [Memory.write]
    split
    · rename_i hk
      refine List.pairwise_cons.2 ⟨fun c hc => ?_, hm⟩
      rcases List.mem_cons.1 hc with rfl | hc
      · exact hk
      · exact Nat.lt_trans hk (hd c hc)
    · split
      · rename_i hk
        exact List.pairwise_cons.2 ⟨fun c hc => hk ▸ hd c hc, ht⟩
      · refine List.pairwise_cons.2 ⟨fun c hc => ?_, ih ht⟩
        rcases Memory.mem_write hc with rfl | hc
        · show a < k
          omega
        · exact hd c hc

theorem Memory.mem_cells {a : Nat} {s : List Byte} {c : Host.Cell} (h : c ∈ Memory.cells a s) :
    a ≤ c.1 ∧ c.1 < a + s.length := by
  induction s generalizing a with
  | nil => simp [Memory.cells] at h
  | cons b s ih =>
    rcases List.mem_cons.1 h with rfl | h
    · simp
    · have := ih h
      simp only [List.length_cons]
      omega

theorem Memory.wf_cells (a : Nat) (s : List Byte) : (Memory.cells a s).wf := by
  induction s generalizing a with
  | nil => simp [Memory.cells, Memory.wf]
  | cons b s ih => exact List.pairwise_cons.2 ⟨fun c hc => (Memory.mem_cells hc).1, ih (a + 1)⟩

/-- A bulk store keeps the canonical form. -/
theorem Memory.wf_store {m : Memory} (hm : m.wf) (s : List Byte) : (m.store s).wf := by
  refine List.pairwise_append.2 ⟨Memory.wf_cells 0 s, List.Pairwise.filter _ hm, fun c hc d hd => ?_⟩
  have h1 := (Memory.mem_cells hc).2
  have h2 : s.length ≤ d.1 := by simpa using (List.mem_filter.1 hd).2
  omega

theorem Memory.mem_store {m : Memory} {s : List Byte} {c : Host.Cell} (h : c ∈ m.store s) :
    c.1 < s.length ∨ c ∈ m := by
  rcases List.mem_append.1 h with h | h
  · exact .inl (by have := (Memory.mem_cells h).2; omega)
  · exact .inr (List.mem_filter.1 h).1

/-- Storing the same bytes again changes nothing. -/
theorem Memory.store_store (m : Memory) (s : List Byte) : (m.store s).store s = m.store s := by
  have h : (Memory.cells 0 s).filter (fun c => decide (s.length ≤ c.1)) = [] :=
    List.filter_eq_nil_iff.2 fun c hc => by
      have := (Memory.mem_cells hc).2
      simp only [decide_eq_true_eq]
      omega
  simp only [Memory.store, List.filter_append, h, List.nil_append, List.filter_filter, Bool.and_self]

theorem Memory.get?_isSome_of_mem {m : Memory} {c : Host.Cell} (h : c ∈ m) : (m.get? c.1).isSome := by
  induction m with
  | nil => simp at h
  | cons d m ih =>
    rw [Memory.get?_cons]
    split
    · rfl
    · rename_i hne
      rcases List.mem_cons.1 h with rfl | h
      · exact absurd rfl hne
      · exact ih h

theorem Memory.get?_eq_none_of_lt {m : Memory} {k : Nat} (h : ∀ c ∈ m, k < c.1) : m.get? k = none := by
  induction m with
  | nil => rfl
  | cons d m ih =>
    have hd := h d List.mem_cons_self
    rw [Memory.get?_cons, if_neg (by omega)]
    exact ih fun c hc => h c (List.mem_cons_of_mem _ hc)

/-- Two byte spaces in canonical form that read the same everywhere are the same data. -/
theorem Memory.ext_of_wf {m m' : Memory} (hm : m.wf) (hm' : m'.wf) (h : ∀ k, m.get? k = m'.get? k) : m = m' := by
  induction m generalizing m' with
  | nil =>
    cases m' with
    | nil => rfl
    | cons d m' =>
      have := h d.1
      rw [Memory.get?_cons, if_pos rfl] at this
      cases this
  | cons c m ih =>
    obtain ⟨hc, ht⟩ := List.pairwise_cons.1 hm
    cases m' with
    | nil =>
      have := h c.1
      rw [Memory.get?_cons, if_pos rfl] at this
      cases this
    | cons d m' =>
      obtain ⟨hd, ht'⟩ := List.pairwise_cons.1 hm'
      have hcd : c.1 = d.1 := by
        rcases Nat.lt_trichotomy c.1 d.1 with hlt | heq | hgt
        · have := h c.1
          rw [Memory.get?_cons, if_pos rfl, Memory.get?_eq_none_of_lt] at this
          · cases this
          · intro e he
            rcases List.mem_cons.1 he with rfl | he
            · exact hlt
            · exact Nat.lt_trans hlt (hd e he)
        · exact heq
        · have := h d.1
          rw [Memory.get?_cons (c := d), if_pos rfl, Memory.get?_eq_none_of_lt] at this
          · cases this
          · intro e he
            rcases List.mem_cons.1 he with rfl | he
            · exact hgt
            · exact Nat.lt_trans hgt (hc e he)
      have hval : c.2 = d.2 := by
        have := h c.1
        rw [Memory.get?_cons, if_pos rfl, Memory.get?_cons, if_pos hcd.symm] at this
        exact Option.some.inj this
      have htail : m = m' := by
        refine ih ht ht' fun k => ?_
        have hk := h k
        rw [Memory.get?_cons, Memory.get?_cons, ← hcd] at hk
        by_cases hck : c.1 = k
        · subst hck
          rw [Memory.get?_eq_none_of_lt hc, Memory.get?_eq_none_of_lt (m := m') fun e he => hcd ▸ hd e he]
        · simpa [hck] using hk
      rw [htail, Prod.ext hcd hval]

end Sys2Proof.Machine
end

