-- ==== Sys2Proof/Laws/State.lean ====
section
/-! SUPPORT. One lemma per field of State per update, true by rfl, and the register file under a host write. -/

namespace Sys2Proof.Machine

/-! ### `finish` -/

@[simp] theorem finish_regs (o : CommandOutcome) (s : State) :
    (finish o s).regs = { s.regs with code := o.code, fault := faultAfter o s.regs.fault } := rfl
@[simp] theorem finish_segBuf (o : CommandOutcome) (s : State) : (finish o s).segBuf = s.segBuf := rfl
@[simp] theorem finish_thumb (o : CommandOutcome) (s : State) : (finish o s).thumb = s.thumb := rfl
@[simp] theorem finish_config (o : CommandOutcome) (s : State) : (finish o s).config = s.config := rfl
@[simp] theorem finish_program (o : CommandOutcome) (s : State) : (finish o s).program = s.program := rfl
@[simp] theorem finish_hostIndex (o : CommandOutcome) (s : State) : (finish o s).hostIndex = s.hostIndex := rfl
@[simp] theorem finish_observed (o : CommandOutcome) (s : State) : (finish o s).observed = s.observed := rfl
@[simp] theorem finish_drawEpoch (o : CommandOutcome) (s : State) : (finish o s).drawEpoch = s.drawEpoch := rfl

/-! ### `emit` -/

@[simp] theorem emit_regs (code : Byte) (content : List Byte) (s : State) :
    (emit code content s).regs = { s.regs with segCode := code, segLen := BitVec.ofNat 18 content.length } := rfl
@[simp] theorem emit_segBuf (code : Byte) (content : List Byte) (s : State) :
    (emit code content s).segBuf = s.segBuf.store content := rfl
@[simp] theorem emit_thumb (code : Byte) (content : List Byte) (s : State) :
    (emit code content s).thumb = s.thumb := rfl
@[simp] theorem emit_config (code : Byte) (content : List Byte) (s : State) :
    (emit code content s).config = s.config := rfl
@[simp] theorem emit_program (code : Byte) (content : List Byte) (s : State) :
    (emit code content s).program = s.program := rfl
@[simp] theorem emit_hostIndex (code : Byte) (content : List Byte) (s : State) :
    (emit code content s).hostIndex = s.hostIndex := rfl
@[simp] theorem emit_observed (code : Byte) (content : List Byte) (s : State) :
    (emit code content s).observed = s.observed := rfl
@[simp] theorem emit_drawEpoch (code : Byte) (content : List Byte) (s : State) :
    (emit code content s).drawEpoch = s.drawEpoch := rfl

/-! ### `setResult` -/

@[simp] theorem setResult_regs (b : Bool) (s : State) :
    (setResult b s).regs = { s.regs with result := boolBit b } := rfl
@[simp] theorem setResult_segBuf (b : Bool) (s : State) : (setResult b s).segBuf = s.segBuf := rfl
@[simp] theorem setResult_thumb (b : Bool) (s : State) : (setResult b s).thumb = s.thumb := rfl
@[simp] theorem setResult_config (b : Bool) (s : State) : (setResult b s).config = s.config := rfl
@[simp] theorem setResult_program (b : Bool) (s : State) : (setResult b s).program = s.program := rfl
@[simp] theorem setResult_hostIndex (b : Bool) (s : State) : (setResult b s).hostIndex = s.hostIndex := rfl
@[simp] theorem setResult_observed (b : Bool) (s : State) : (setResult b s).observed = s.observed := rfl
@[simp] theorem setResult_drawEpoch (b : Bool) (s : State) : (setResult b s).drawEpoch = s.drawEpoch := rfl

/-! ### `storeDefaults` -/

@[simp] theorem storeDefaults_regs (p : PresetParams) (s : State) :
    (storeDefaults p s).regs =
      { s.regs with
        oMaxval := BitVec.ofNat 16 p.maxval
        oT1 := BitVec.ofNat 16 p.t1
        oT2 := BitVec.ofNat 16 p.t2
        oT3 := BitVec.ofNat 16 p.t3
        oReset := BitVec.ofNat 16 p.reset } := rfl
@[simp] theorem storeDefaults_segBuf (p : PresetParams) (s : State) : (storeDefaults p s).segBuf = s.segBuf := rfl
@[simp] theorem storeDefaults_thumb (p : PresetParams) (s : State) : (storeDefaults p s).thumb = s.thumb := rfl
@[simp] theorem storeDefaults_config (p : PresetParams) (s : State) : (storeDefaults p s).config = s.config := rfl
@[simp] theorem storeDefaults_program (p : PresetParams) (s : State) : (storeDefaults p s).program = s.program := rfl
@[simp] theorem storeDefaults_hostIndex (p : PresetParams) (s : State) :
    (storeDefaults p s).hostIndex = s.hostIndex := rfl
@[simp] theorem storeDefaults_observed (p : PresetParams) (s : State) :
    (storeDefaults p s).observed = s.observed := rfl
@[simp] theorem storeDefaults_drawEpoch (p : PresetParams) (s : State) :
    (storeDefaults p s).drawEpoch = s.drawEpoch := rfl

/-! ### `advanceHost` -/

@[simp] theorem advanceHost_regs (n : Nat) (s : State) : (advanceHost n s).regs = s.regs := rfl
@[simp] theorem advanceHost_segBuf (n : Nat) (s : State) : (advanceHost n s).segBuf = s.segBuf := rfl
@[simp] theorem advanceHost_thumb (n : Nat) (s : State) : (advanceHost n s).thumb = s.thumb := rfl
@[simp] theorem advanceHost_config (n : Nat) (s : State) : (advanceHost n s).config = s.config := rfl
@[simp] theorem advanceHost_program (n : Nat) (s : State) : (advanceHost n s).program = s.program := rfl
@[simp] theorem advanceHost_hostIndex (n : Nat) (s : State) : (advanceHost n s).hostIndex = s.hostIndex + n := rfl
@[simp] theorem advanceHost_observed (n : Nat) (s : State) : (advanceHost n s).observed = s.observed := rfl
@[simp] theorem advanceHost_drawEpoch (n : Nat) (s : State) : (advanceHost n s).drawEpoch = s.drawEpoch := rfl

/-! ### `storeThumb` -/

@[simp] theorem storeThumb_regs (a : Nat) (b : Byte) (s : State) : (storeThumb a b s).regs = s.regs := by
  unfold storeThumb; split <;> rfl
@[simp] theorem storeThumb_segBuf (a : Nat) (b : Byte) (s : State) : (storeThumb a b s).segBuf = s.segBuf := by
  unfold storeThumb; split <;> rfl
@[simp] theorem storeThumb_config (a : Nat) (b : Byte) (s : State) : (storeThumb a b s).config = s.config := by
  unfold storeThumb; split <;> rfl
@[simp] theorem storeThumb_program (a : Nat) (b : Byte) (s : State) : (storeThumb a b s).program = s.program := by
  unfold storeThumb; split <;> rfl
@[simp] theorem storeThumb_hostIndex (a : Nat) (b : Byte) (s : State) :
    (storeThumb a b s).hostIndex = s.hostIndex := by
  unfold storeThumb; split <;> rfl
@[simp] theorem storeThumb_observed (a : Nat) (b : Byte) (s : State) : (storeThumb a b s).observed = s.observed := by
  unfold storeThumb; split <;> rfl
@[simp] theorem storeThumb_drawEpoch (a : Nat) (b : Byte) (s : State) :
    (storeThumb a b s).drawEpoch = s.drawEpoch := by
  unfold storeThumb; split <;> rfl

/-- Inside the window the byte is stored. -/
theorem storeThumb_inside {a : Nat} (h : a < thumbCap) (b : Byte) (s : State) :
    storeThumb a b s = { s with thumb := s.thumb.write a b } := if_pos h

/-- Outside the window there is nothing to store to. -/
theorem storeThumb_outside {a : Nat} (h : thumbCap ≤ a) (b : Byte) (s : State) : storeThumb a b s = s :=
  if_neg (Nat.not_lt.2 h)

/-! ### `observe` -/

@[simp] theorem observe_regs (o : Observation) (s : State) : (observe o s).regs = s.regs := rfl
@[simp] theorem observe_segBuf (o : Observation) (s : State) : (observe o s).segBuf = s.segBuf := rfl
@[simp] theorem observe_thumb (o : Observation) (s : State) : (observe o s).thumb = s.thumb := rfl
@[simp] theorem observe_config (o : Observation) (s : State) : (observe o s).config = s.config := rfl
@[simp] theorem observe_program (o : Observation) (s : State) : (observe o s).program = s.program := rfl
@[simp] theorem observe_hostIndex (o : Observation) (s : State) : (observe o s).hostIndex = s.hostIndex := rfl
@[simp] theorem observe_observed (o : Observation) (s : State) : (observe o s).observed = o :: s.observed := rfl
@[simp] theorem observe_drawEpoch (o : Observation) (s : State) : (observe o s).drawEpoch = s.drawEpoch := rfl

/-! ### `newEpoch` -/

@[simp] theorem newEpoch_regs (s : State) : (newEpoch s).regs = s.regs := rfl
@[simp] theorem newEpoch_segBuf (s : State) : (newEpoch s).segBuf = s.segBuf := rfl
@[simp] theorem newEpoch_thumb (s : State) : (newEpoch s).thumb = s.thumb := rfl
@[simp] theorem newEpoch_config (s : State) : (newEpoch s).config = s.config := rfl
@[simp] theorem newEpoch_program (s : State) : (newEpoch s).program = s.program := rfl
@[simp] theorem newEpoch_hostIndex (s : State) : (newEpoch s).hostIndex = s.hostIndex := rfl
@[simp] theorem newEpoch_observed (s : State) : (newEpoch s).observed = s.observed := rfl
@[simp] theorem newEpoch_drawEpoch (s : State) : (newEpoch s).drawEpoch = s.drawEpoch + 1 := rfl

/-! ### `storeIndex` -/

@[simp] theorem storeIndex_regs (idx : Byte) (v : Word) (s : State) :
    (storeIndex idx v s).regs = writeIndex s.regs idx v := rfl
@[simp] theorem storeIndex_segBuf (idx : Byte) (v : Word) (s : State) : (storeIndex idx v s).segBuf = s.segBuf := rfl
@[simp] theorem storeIndex_thumb (idx : Byte) (v : Word) (s : State) : (storeIndex idx v s).thumb = s.thumb := rfl
@[simp] theorem storeIndex_config (idx : Byte) (v : Word) (s : State) : (storeIndex idx v s).config = s.config := rfl
@[simp] theorem storeIndex_program (idx : Byte) (v : Word) (s : State) :
    (storeIndex idx v s).program = s.program := rfl
@[simp] theorem storeIndex_hostIndex (idx : Byte) (v : Word) (s : State) :
    (storeIndex idx v s).hostIndex = s.hostIndex := rfl
@[simp] theorem storeIndex_observed (idx : Byte) (v : Word) (s : State) :
    (storeIndex idx v s).observed = s.observed := rfl
@[simp] theorem storeIndex_drawEpoch (idx : Byte) (v : Word) (s : State) :
    (storeIndex idx v s).drawEpoch = s.drawEpoch := rfl

/-! ### `resetBlock` -/

@[simp] theorem resetBlock_regs (s : State) : (resetBlock s).regs = Regs.reset := rfl
@[simp] theorem resetBlock_segBuf (s : State) : (resetBlock s).segBuf = [] := rfl
@[simp] theorem resetBlock_thumb (s : State) : (resetBlock s).thumb = s.thumb := rfl
@[simp] theorem resetBlock_config (s : State) : (resetBlock s).config = s.config := rfl
@[simp] theorem resetBlock_program (s : State) : (resetBlock s).program = s.program := rfl
@[simp] theorem resetBlock_hostIndex (s : State) : (resetBlock s).hostIndex = s.hostIndex := rfl
@[simp] theorem resetBlock_observed (s : State) : (resetBlock s).observed = s.observed := rfl
@[simp] theorem resetBlock_drawEpoch (s : State) : (resetBlock s).drawEpoch = s.drawEpoch := rfl

/-! ### `loadProgram` -/

@[simp] theorem loadProgram_regs (p : List HostAction) (s : State) : (loadProgram p s).regs = s.regs := rfl
@[simp] theorem loadProgram_segBuf (p : List HostAction) (s : State) : (loadProgram p s).segBuf = s.segBuf := rfl
@[simp] theorem loadProgram_thumb (p : List HostAction) (s : State) : (loadProgram p s).thumb = s.thumb := rfl
@[simp] theorem loadProgram_config (p : List HostAction) (s : State) : (loadProgram p s).config = s.config := rfl
@[simp] theorem loadProgram_program (p : List HostAction) (s : State) : (loadProgram p s).program = p := rfl
@[simp] theorem loadProgram_hostIndex (p : List HostAction) (s : State) : (loadProgram p s).hostIndex = 0 := rfl
@[simp] theorem loadProgram_observed (p : List HostAction) (s : State) :
    (loadProgram p s).observed = s.observed := rfl
@[simp] theorem loadProgram_drawEpoch (p : List HostAction) (s : State) :
    (loadProgram p s).drawEpoch = s.drawEpoch := rfl

/-! ### `afterWrite` -/

@[simp] theorem afterWrite_regs (idx : Byte) (v : Word) (s : State) :
    (afterWrite idx v s).regs = writeIndex s.regs idx v := rfl
@[simp] theorem afterWrite_segBuf (idx : Byte) (v : Word) (s : State) : (afterWrite idx v s).segBuf = s.segBuf := rfl
@[simp] theorem afterWrite_thumb (idx : Byte) (v : Word) (s : State) : (afterWrite idx v s).thumb = s.thumb := rfl
@[simp] theorem afterWrite_config (idx : Byte) (v : Word) (s : State) : (afterWrite idx v s).config = s.config := rfl
@[simp] theorem afterWrite_program (idx : Byte) (v : Word) (s : State) :
    (afterWrite idx v s).program = s.program := rfl
@[simp] theorem afterWrite_hostIndex (idx : Byte) (v : Word) (s : State) :
    (afterWrite idx v s).hostIndex = s.hostIndex + 1 := rfl
@[simp] theorem afterWrite_observed (idx : Byte) (v : Word) (s : State) :
    (afterWrite idx v s).observed = s.observed := rfl
@[simp] theorem afterWrite_drawEpoch (idx : Byte) (v : Word) (s : State) :
    (afterWrite idx v s).drawEpoch = s.drawEpoch + 1 := rfl

/-! ### The register file under a host write -/

@[simp] theorem writeIndex_cmdIndex (r : Regs) (v : Word) : writeIndex r cmdIndex v = { r with cmd := v } := rfl

@[simp] theorem writeIndex_code (r : Regs) (idx : Byte) (v : Word) : (writeIndex r idx v).code = r.code := by
  unfold writeIndex
  split
  · rename_i reg _
    cases reg <;> rfl
  · rfl

@[simp] theorem writeIndex_fault (r : Regs) (idx : Byte) (v : Word) : (writeIndex r idx v).fault = r.fault := by
  unfold writeIndex
  split
  · rename_i reg _
    cases reg <;> rfl
  · rfl

@[simp] theorem writeIndex_oMaxval (r : Regs) (idx : Byte) (v : Word) : (writeIndex r idx v).oMaxval = r.oMaxval := by
  unfold writeIndex
  split
  · rename_i reg _
    cases reg <;> rfl
  · rfl

@[simp] theorem writeIndex_oT1 (r : Regs) (idx : Byte) (v : Word) : (writeIndex r idx v).oT1 = r.oT1 := by
  unfold writeIndex
  split
  · rename_i reg _
    cases reg <;> rfl
  · rfl

@[simp] theorem writeIndex_oT2 (r : Regs) (idx : Byte) (v : Word) : (writeIndex r idx v).oT2 = r.oT2 := by
  unfold writeIndex
  split
  · rename_i reg _
    cases reg <;> rfl
  · rfl

@[simp] theorem writeIndex_oT3 (r : Regs) (idx : Byte) (v : Word) : (writeIndex r idx v).oT3 = r.oT3 := by
  unfold writeIndex
  split
  · rename_i reg _
    cases reg <;> rfl
  · rfl

@[simp] theorem writeIndex_oReset (r : Regs) (idx : Byte) (v : Word) : (writeIndex r idx v).oReset = r.oReset := by
  unfold writeIndex
  split
  · rename_i reg _
    cases reg <;> rfl
  · rfl

@[simp] theorem writeIndex_result (r : Regs) (idx : Byte) (v : Word) : (writeIndex r idx v).result = r.result := by
  unfold writeIndex
  split
  · rename_i reg _
    cases reg <;> rfl
  · rfl

@[simp] theorem writeIndex_segCode (r : Regs) (idx : Byte) (v : Word) : (writeIndex r idx v).segCode = r.segCode := by
  unfold writeIndex
  split
  · rename_i reg _
    cases reg <;> rfl
  · rfl

@[simp] theorem writeIndex_segLen (r : Regs) (idx : Byte) (v : Word) : (writeIndex r idx v).segLen = r.segLen := by
  unfold writeIndex
  split
  · rename_i reg _
    cases reg <;> rfl
  · rfl

/-- The state after a CMD write has been stored: CMD holds the word, the host has gone on. -/
theorem afterWrite_cmdIndex (w : Word) (s : State) :
    afterWrite cmdIndex w s =
      { s with regs := { s.regs with cmd := w }, hostIndex := s.hostIndex + 1, drawEpoch := s.drawEpoch + 1 } := rfl

theorem nextAction_withFetchWord (s : State) (nbits w : Nat) :
    nextAction (s.withFetchWord nbits w) = some (.wr cmdIndex (BitVec.ofNat 32 (w % 2 ^ nbits))) := rfl

end Sys2Proof.Machine
end

