-- ==== Sys2Proof/Laws/Threshold.lean ====
section
/-! SUPPORT. The laws of clamp and DefaultPC: what a clamp can answer, and the shape of a derived set. -/

namespace Sys2Proof.Machine

theorem clamp_of_outside {i j m : Nat} (h : m < i ∨ i < j) : clamp i j m = j := if_pos h

theorem clamp_of_inside {i j m : Nat} (h1 : j ≤ i) (h2 : i ≤ m) : clamp i j m = i :=
  if_neg (by omega)

/-- Everything a clamp can answer: its low bound, or its argument when that lies between the bounds. -/
theorem clamp_cases (i j m : Nat) : clamp i j m = j ∨ (clamp i j m = i ∧ j ≤ i ∧ i ≤ m) := by
  by_cases h : m < i ∨ i < j
  · exact .inl (clamp_of_outside h)
  · exact .inr ⟨clamp_of_inside (by omega) (by omega), by omega, by omega⟩

theorem le_clamp (i j m : Nat) : j ≤ clamp i j m := by
  rcases clamp_cases i j m with h | h <;> omega

theorem clamp_le {j m : Nat} (i : Nat) (h : j ≤ m) : clamp i j m ≤ m := by
  rcases clamp_cases i j m with h | h <;> omega

@[simp] theorem defaultPc_maxval (m n : Nat) : (defaultPc m n).maxval = m := by
  unfold defaultPc; split <;> rfl

@[simp] theorem defaultPc_reset (m n : Nat) : (defaultPc m n).reset = stdReset := by
  unfold defaultPc; split <;> rfl

/-- A derived set is three nested clamps over some arguments, whichever the branch. -/
theorem defaultPc_shape (m n : Nat) : ∃ a b c, (defaultPc m n).t1 = clamp a (n + 1) m ∧
    (defaultPc m n).t2 = clamp b (defaultPc m n).t1 m ∧ (defaultPc m n).t3 = clamp c (defaultPc m n).t2 m := by
  unfold defaultPc
  split
  · exact ⟨_, _, _, rfl, rfl, rfl⟩
  · exact ⟨_, _, _, rfl, rfl, rfl⟩

/-- The thresholds of a derived set never fall, whatever m and n are. -/
theorem defaultPc_rising (m n : Nat) : n + 1 ≤ (defaultPc m n).t1 ∧
    (defaultPc m n).t1 ≤ (defaultPc m n).t2 ∧ (defaultPc m n).t2 ≤ (defaultPc m n).t3 := by
  obtain ⟨a, b, c, h1, h2, h3⟩ := defaultPc_shape m n
  exact ⟨h1 ▸ le_clamp a _ m, h2 ▸ le_clamp b _ m, h3 ▸ le_clamp c _ m⟩

/-- When the precondition of PC_DEFAULT fails, on the numbers its registers hold. -/
theorem pcDefaultViolates_iff (s : State) : pcDefaultViolates s = true ↔
    s.regs.msv.toNat = 0 ∨ maxNear s.config s.regs.msv.toNat < s.regs.near.toNat := by
  simp [pcDefaultViolates, msvOperand, nearOperand]

theorem isDefault_iff (c : PresetParams) : isDefault c = true ↔
    c.maxval = 0 ∧ c.t1 = 0 ∧ c.t2 = 0 ∧ c.t3 = 0 ∧ c.reset = 0 := by
  simp [isDefault, and_assoc]

end Sys2Proof.Machine
end

