-- ==== Sys2Proof/Laws/Exec.lean ====
section
/-! SUPPORT. What a command and a step can do, said once: every invariant follows from `exec_cases`,
`performCommand_cases` and `step_cases`. -/

namespace Sys2Proof.Machine

/-! ### Dispatch, one equation per command -/

theorem exec_pcDefault (s : State) : exec .pcDefault s = execPcDefault s := rfl
theorem exec_pcIsDefault (s : State) : exec .pcIsDefault s = execPcIsDefault s := rfl
theorem exec_pcIsValid (s : State) : exec .pcIsValid s = execPcIsValid s := rfl
theorem exec_segSof (s : State) : exec .segSof s = execSegSof s := rfl
theorem exec_segJfif (s : State) : exec .segJfif s = execSegJfif s := rfl
theorem exec_segLse (s : State) : exec .segLse s = execSegLse s := rfl
theorem exec_segApp8 (s : State) : exec .segApp8 s = execSegApp8 s := rfl
theorem exec_segSos (s : State) : exec .segSos s = execSegSos s := rfl

/-! ### What a command can do -/

/-- What a command leaves behind: a failure writes only STATUS, PC_DEFAULT writes O_*, the two tests write RESULT, a
segment command writes SEG_*, with a content that fits SEG_BUF. -/
inductive CommandEffect (i : Instr) (s t : State) : Prop where
  | failed (o : CommandOutcome) (ho : o = .invalidParameters ∨ o = .contractViolation) (ht : t = finish o s)
  | derived (hi : i = .pcDefault) (hok : pcDefaultViolates s = false)
      (ht : t = finish .ok (storeDefaults (defaultPc (msvOperand s.regs) (nearOperand s.regs)) s))
  | tested (b : Bool) (hi : i = .pcIsDefault ∧ b = isDefault (candidate s.regs) ∨
        i = .pcIsValid ∧ b = isValid (candidate s.regs) (mcvOperand s.regs) (nearOperand s.regs))
      (ht : t = finish .ok (setResult b s))
  | built (code : Byte) (content : List Byte)
      (hi : i = .segSof ∧ code = s.config.mcSof ∧ content = sofContent s.regs ∨
        i = .segJfif ∧ code = s.config.mcApp0 ∧ content = jfifContent s.regs s.thumb s.regs.thumbLength ∨
        i = .segLse ∧ code = s.config.mcLse ∧ content = lseContent s.regs ∨
        i = .segApp8 ∧ code = s.config.mcApp8 ∧ content = app8Content s.regs ∨
        i = .segSos ∧ code = s.config.mcSos ∧ content = sosContent s.regs)
      (hlen : content.length ≤ segCap) (ht : t = finish .ok (emit code content s))

theorem done_eq (s : State) : done s = .next (finish .ok s) := rfl

theorem raise_eq (o : CommandOutcome) (s : State) : raise o s = .next (finish o s) := rfl

/-- What PC_DEFAULT does. -/
theorem execPcDefault_effect (s : State) : ∃ t, execPcDefault s = .next t ∧ CommandEffect .pcDefault s t := by
  unfold execPcDefault
  by_cases h : pcDefaultViolates s = true
  · exact ⟨_, by rw [if_pos h, raise_eq], .failed _ (.inr rfl) rfl⟩
  · exact ⟨_, by rw [if_neg h, done_eq], .derived rfl (by simpa using h) rfl⟩

/-- What SEG_SOF does. -/
theorem execSegSof_effect (s : State) : ∃ t, execSegSof s = .next t ∧ CommandEffect .segSof s t := by
  unfold execSegSof
  by_cases h : sofViolates s.regs = true
  · exact ⟨_, by rw [if_pos h, raise_eq], .failed _ (.inr rfl) rfl⟩
  · refine ⟨_, by rw [if_neg h, done_eq], .built _ _ (.inl ⟨rfl, rfl, rfl⟩) ?_ rfl⟩
    have := s.regs.fNf.isLt
    rw [sofContent_length, segCap]
    omega

/-- What SEG_JFIF does. -/
theorem execSegJfif_effect (s : State) : ∃ t, execSegJfif s = .next t ∧ CommandEffect .segJfif s t := by
  unfold execSegJfif
  by_cases h : jfifViolates s.regs = true
  · exact ⟨_, by rw [if_pos h, raise_eq], .failed _ (.inr rfl) rfl⟩
  · rw [if_neg h]
    cases hc : thumbLen s.config.thumbPolicy s.regs.jXthumb.toNat s.regs.jYthumb.toNat (thumbSupplied s.regs) with
    | raises o => exact ⟨_, raise_eq o s, .failed o (thumbLen_raises hc) rfl⟩
    | copy k =>
      refine ⟨_, done_eq _, .built _ _ (.inr (.inl ⟨rfl, rfl, by rw [thumbLen_copy_length hc]; rfl⟩)) ?_ rfl⟩
      have := thumbLen_copy (by have := s.regs.jXthumb.isLt; omega) (by have := s.regs.jYthumb.isLt; omega) hc
      rw [thumbCap] at this
      rw [jfifContent_length, segCap]
      omega

/-- What SEG_SOS does. -/
theorem execSegSos_effect (s : State) : ∃ t, execSegSos s = .next t ∧ CommandEffect .segSos s t := by
  unfold execSegSos
  by_cases h : sosViolates s.regs = true
  · exact ⟨_, by rw [if_pos h, raise_eq], .failed _ (.inr rfl) rfl⟩
  · refine ⟨_, by rw [if_neg h, done_eq], .built _ _ (.inr (.inr (.inr (.inr ⟨rfl, rfl, rfl⟩)))) ?_ rfl⟩
    have := s.regs.sNs.isLt
    rw [sosContent_length, segCap]
    split <;> omega

/-- Every command answers a next state, and this is everything it can be. -/
theorem exec_effect (i : Instr) (s : State) : ∃ t, exec i s = .next t ∧ CommandEffect i s t := by
  cases i with
  | pcDefault => exact execPcDefault_effect s
  | pcIsDefault => exact ⟨_, rfl, .tested _ (.inl ⟨rfl, rfl⟩) rfl⟩
  | pcIsValid => exact ⟨_, rfl, .tested _ (.inr ⟨rfl, rfl⟩) rfl⟩
  | segSof => exact execSegSof_effect s
  | segJfif => exact execSegJfif_effect s
  | segLse =>
    have hlen : (lseContent s.regs).length ≤ segCap := by rw [lseContent_length, segCap]; omega
    exact ⟨_, rfl, .built _ _ (.inr (.inr (.inl ⟨rfl, rfl, rfl⟩))) hlen rfl⟩
  | segApp8 =>
    have hlen : (app8Content s.regs).length ≤ segCap := by rw [app8Content_length, segCap]; omega
    exact ⟨_, rfl, .built _ _ (.inr (.inr (.inr (.inl ⟨rfl, rfl, rfl⟩)))) hlen rfl⟩
  | segSos => exact execSegSos_effect s

theorem exec_cases {i : Instr} {s t : State} (h : exec i s = .next t) : CommandEffect i s t := by
  obtain ⟨t', ht', he⟩ := exec_effect i s
  rw [h] at ht'
  cases ht'
  exact he

/-- No command writes P_MAXVAL to P_RESET. -/
theorem commandEffect_candidate {i : Instr} {s t : State} (h : CommandEffect i s t) :
    candidate t.regs = candidate s.regs := by
  cases h <;> subst_vars <;> rfl

/-- A host write elsewhere keeps P_MAXVAL to P_RESET. -/
theorem writeIndex_candidate (r : Regs) (idx : Byte) (v : Word) (h : (HostAction.wr idx v).keepsCandidate = true) :
    candidate (writeIndex r idx v) = candidate r := by
  unfold writeIndex
  cases hr : Reg.ofIndex idx with
  | none => rfl
  | some reg =>
    obtain rfl : Reg.index reg = idx := by simpa using List.find?_some hr
    cases reg <;> first | rfl | (exfalso; revert h; simp [HostAction.keepsCandidate])

/-! ### What a CMD write and a step can do -/

/-- A command word's effect on a state in which CMD already holds it. -/
theorem performCommand_cases {w : Word} {s t : State} (h : performCommand w s = .next t) :
    (∃ i, decode w = .instr i ∧ CommandEffect i s t) ∨
    (∃ e, decode w = .illegal e ∧ t = finish .illegalCommand s) := by
  unfold performCommand at h
  cases hd : decode w with
  | instr i => rw [hd] at h; exact .inl ⟨i, rfl, exec_cases h⟩
  | illegal e => rw [hd] at h; cases h; exact .inr ⟨e, rfl, rfl⟩

theorem performCommand_next (w : Word) (s : State) : ∃ t, performCommand w s = .next t := by
  unfold performCommand
  cases decode w with
  | instr i => obtain ⟨t, ht, -⟩ := exec_effect i s; exact ⟨t, ht⟩
  | illegal e => exact ⟨_, rfl⟩

/-- Everything a step that answers a next state can have been. -/
inductive StepEffect (s t : State) : Prop where
  | idle (ha : nextAction s = none) (ht : t = s)
  | command (w : Word) (ha : nextAction s = some (.wr cmdIndex w))
      (ht : performCommand w (afterWrite cmdIndex w s) = .next t)
  | write (idx : Byte) (v : Word) (hne : idx ≠ cmdIndex) (ha : nextAction s = some (.wr idx v))
      (ht : t = afterWrite idx v s)
  | read (idx : Byte) (ha : nextAction s = some (.rd idx))
      (ht : t = advanceHost 1 (observe (.register idx (readIndex s.regs idx)) s))
  | readByte (k : Nat) (hk : k < segCap) (ha : nextAction s = some (.rdb k))
      (ht : t = advanceHost 1 (observe (.segByte k (segByte s k)) s))
  | writeThumb (a : Nat) (b : Byte) (ha : nextAction s = some (.wrt a b))
      (ht : t = newEpoch (advanceHost 1 (storeThumb a b s)))
  | skip (idx : Byte) (k : Nat) (ha : nextAction s = some (.skipz idx k))
      (ht : t = advanceHost (if readIndex s.regs idx = 0 then 1 + k else 1)
        (observe (.register idx (readIndex s.regs idx)) s))
  | reset (ha : nextAction s = some .reset) (ht : t = resetBlock (newEpoch (advanceHost 1 s)))

theorem step_eq_perform {s : State} {a : HostAction} (h : nextAction s = some a) : step s = perform a s := by
  simp only [step, stepHost, h]

theorem step_idle {s : State} (h : nextAction s = none) : step s = .next s := by
  simp only [step, stepHost, h]

theorem step_cases {s t : State} (h : step s = .next t) : StepEffect s t := by
  cases ha : nextAction s with
  | none => rw [step_idle ha] at h; cases h; exact .idle ha rfl
  | some a =>
    rw [step_eq_perform ha] at h
    cases a with
    | wr idx v =>
      simp only [perform, hostWrite] at h
      split at h
      · rename_i hidx; subst hidx; exact .command v ha h
      · rename_i hidx; cases h; exact .write idx v hidx ha rfl
    | rd idx => cases h; exact .read idx ha rfl
    | rdb k =>
      simp only [perform, hostReadByte] at h
      split at h
      · rename_i hk; cases h; exact .readByte k hk ha rfl
      · cases h
    | wrt a b => cases h; exact .writeThumb a b ha rfl
    | skipz idx k => cases h; exact .skip idx k ha rfl
    | reset => cases h; exact .reset ha rfl

/-! ### Doing the same twice -/

theorem faultAfter_faultAfter (o : CommandOutcome) (f : BitVec 1) : faultAfter o (faultAfter o f) = faultAfter o f := by
  cases o <;> rfl

/-- Recording the same outcome twice is recording it once. -/
theorem finish_finish (o : CommandOutcome) (s : State) : finish o (finish o s) = finish o s := by
  simp only [finish, faultAfter_faultAfter]

/-- Building the same segment twice is building it once. -/
theorem finish_emit_finish_emit (o : CommandOutcome) (code : Byte) (content : List Byte) (s : State) :
    finish o (emit code content (finish o (emit code content s))) = finish o (emit code content s) := by
  simp only [finish, emit, faultAfter_faultAfter, Memory.store_store]

@[simp] theorem boolBit_eq_one (b : Bool) : boolBit b = 1#1 ↔ b = true := by cases b <;> simp [boolBit]

/-- A segment command that succeeds is one emit of its marker code and its content, which fits SEG_BUF. -/
theorem exec_built {i : Instr} {s t : State} (h : exec i s = .next t) (hb : buildsSegment i = true)
    (h0 : t.regs.code = 0) :
    (builtContent i s).length ≤ segCap ∧ t = finish .ok (emit (markerCode s.config i) (builtContent i s) s) := by
  cases exec_cases h with
  | failed o ho ht => subst ht; rcases ho with rfl | rfl <;> simp [CommandOutcome.code] at h0
  | derived hi _ _ => subst hi; cases hb
  | tested b hi _ => rcases hi with ⟨rfl, -⟩ | ⟨rfl, -⟩ <;> cases hb
  | built code content hi hlen ht =>
    rcases hi with ⟨rfl, rfl, rfl⟩ | ⟨rfl, rfl, rfl⟩ | ⟨rfl, rfl, rfl⟩ | ⟨rfl, rfl, rfl⟩ | ⟨rfl, rfl, rfl⟩ <;>
      exact ⟨hlen, ht⟩

/-! ### The host's view of SEG_BUF -/

/-- Two states that agree on SEG_LEN, SEG_BUF and the draw epoch give the host the same bytes. -/
theorem segByte_congr {s t : State} (hl : t.regs.segLen = s.regs.segLen) (hb : t.segBuf = s.segBuf)
    (he : t.drawEpoch = s.drawEpoch) (k : Nat) : segByte t k = segByte s k := by
  simp only [segByte, hl, hb, he]

/-- After a segment has been built, the host reads its content. -/
theorem segByte_emit (o : CommandOutcome) (code : Byte) (content : List Byte) (s : State)
    (hlen : content.length ≤ segCap)
    {k : Nat} (hk : k < content.length) : segByte (finish o (emit code content s)) k = content[k] := by
  have hmod : (BitVec.ofNat 18 content.length).toNat = content.length := by
    rw [BitVec.toNat_ofNat, Nat.mod_eq_of_lt]
    rw [segCap] at hlen
    omega
  simp [segByte, hmod, hk, Memory.get?_store]

/-- The same for a byte looked up by its position, the form the content equations give. -/
theorem segByte_emit_of_getElem? (o : CommandOutcome) (code : Byte) {content : List Byte} (s : State)
    (hlen : content.length ≤ segCap) {k : Nat} {b : Byte} (hk : content[k]? = some b) :
    segByte (finish o (emit code content s)) k = b := by
  obtain ⟨h, hb⟩ := List.getElem?_eq_some_iff.1 hk
  rw [segByte_emit o code content s hlen h, hb]

/-- SEG_LEN after a segment has been built. -/
theorem segLen_emit (o : CommandOutcome) (code : Byte) (content : List Byte) (s : State)
    (hlen : content.length ≤ segCap) :
    (finish o (emit code content s)).regs.segLen.toNat = content.length := by
  simp only [finish_regs, emit_regs, BitVec.toNat_ofNat]
  rw [segCap] at hlen
  exact Nat.mod_eq_of_lt (by omega)

/-- The segment the host reads after one has been built is its content. -/
theorem segment_emit (o : CommandOutcome) (code : Byte) (content : List Byte) (s : State)
    (hlen : content.length ≤ segCap) : (finish o (emit code content s)).segment = content := by
  have hl := segLen_emit o code content s hlen
  apply List.ext_getElem
  · simp only [State.segment, List.length_map, List.length_range, hl]
  · intro k h1 h2
    simp only [State.segment, List.getElem_map, List.getElem_range]
    exact segByte_emit o code content s hlen h2

end Sys2Proof.Machine
end

