-- ==== Sys2Proof/Laws/Params.lean ====
section
/-! SUPPORT. The configured MAX_NEAR: the table can hold any function of the domain of 40_threshold.md R102. -/

namespace Sys2Proof.Machine

theorem lookup_map_of_mem (f : Nat → Byte) (m : Nat) (l : List Nat) (h : m ∈ l) :
    (l.map fun x => (x, f x)).lookup m = some (f m) := by
  induction l with
  | nil => simp at h
  | cons x l ih =>
    rw [List.map_cons, List.lookup_cons]
    by_cases hx : m = x
    · simp [hx]
    · have : m ∈ l := by simpa [hx] using h
      have hb : (m == x) = false := by simpa using hx
      simp [hb, ih this]

/-- No MAX_NEAR is shut out: for every function of R102's type there is a configuration that has it. -/
theorem maxNear_covers (f : Nat → Byte) : ∃ c : Config, ∀ m, m < 65536 → maxNear c m = (f m).toNat :=
  ⟨{ defaultConfig with maxNearTable := (List.range 65536).map fun x => (x, f x) }, fun m hm => by
    simp only [maxNear, lookup_map_of_mem f m _ (List.mem_range.2 hm)]⟩

end Sys2Proof.Machine
end

