-- ==== Sys2Proof/Laws/PerInstr.lean ====
section
/-! SUPPORT. The per-command family: each command is well formed and its word is 32 bits with RSV = 0 that decodes to
it (30_encoding.md R70, R71). -/

namespace Sys2Proof.Laws.Encodes

/-- A command is well formed, its word has OP = its opcode and RSV = 0, and the word decodes to it. -/
def Statement (i : Instr) : Prop :=
  i.wellFormed = true ∧ opField (encode i) = opcode i ∧ rsvField (encode i) = 0 ∧ decode (encode i) = .instr i

theorem pcDefault : Statement .pcDefault := by unfold Statement; decide
theorem pcIsDefault : Statement .pcIsDefault := by unfold Statement; decide
theorem pcIsValid : Statement .pcIsValid := by unfold Statement; decide
theorem segSof : Statement .segSof := by unfold Statement; decide
theorem segJfif : Statement .segJfif := by unfold Statement; decide
theorem segLse : Statement .segLse := by unfold Statement; decide
theorem segApp8 : Statement .segApp8 := by unfold Statement; decide
theorem segSos : Statement .segSos := by unfold Statement; decide

end Sys2Proof.Laws.Encodes
end

