-- ==== Sys2Proof/Tests/Slice0.lean ====
section
/-! SUPPORT. Tests on the spec's own vectors (95_test_vectors.md; the section is named at each test), the refusals of
WellFormed and Decode, and a witness for the hypotheses of every statement that has some. -/

namespace Sys2Proof.Tests

open Sys2Proof.Machine

/-! ### Helpers -/

/-- A state after reset but for the registers given. -/
def withRegs (r : Regs) : State := { State.reset with regs := r }

/-- The state whose next step performs the action. -/
def ready (a : HostAction) (s : State) : State := loadProgram [a] s

/-- What a test looks at in the state a step answers. -/
def look {α : Type} (o : Host.Outcome State Fault Refusal) (f : State → α) : Option α :=
  match o with
  | .next s => some (f s)
  | .fault _ => none
  | .refused _ => none

/-- STATUS as the host reads it. -/
def status (s : State) : Word := readIndex s.regs 0x01

/-- The five O_* registers. -/
def derivedSet (s : State) : List Half := [s.regs.oMaxval, s.regs.oT1, s.regs.oT2, s.regs.oT3, s.regs.oReset]

/-- Operands under which all eight commands complete. -/
def sampleRegs : Regs :=
  { Regs.reset with
    msv := 255, mcv := 255, pT2 := 3, fWidth := 4, fHeight := 4, fBps := 8, fNf := 3, jVersion := 0x0102, jUnits := 1
    jXdens := 72, jYdens := 72, jXthumb := 1, jYthumb := 1, jTpres := 1, xform := 1, sNs := 3, sIlv := 2
    sCidx := 0xFFFF }

/-- A state with those operands and three thumbnail bytes. -/
def sample : State := { withRegs sampleRegs with thumb := [(0, 0xFF), (1, 0x00), (2, 0x80)] }

/-- A state that holds an APP8 segment. -/
def built : State :=
  { sample with
    regs := { sampleRegs with segCode := 0xE8, segLen := 5 }
    segBuf := [(0, 0x6D), (1, 0x72), (2, 0x66), (3, 0x78), (4, 0x01)] }

/-- A state with a recorded violation. -/
def faulted : State := withRegs { sampleRegs with code := 2, fault := 1 }

/-! ### Decoding: words written out from 30_encoding.md R70 and R71 (OP in [7:0], RSV = 0) -/

theorem test_decode_pcDefault : decode 0b00000000000000000000000000000001 = .instr .pcDefault := by decide
theorem test_decode_pcIsDefault : decode 0b00000000000000000000000000000010 = .instr .pcIsDefault := by decide
theorem test_decode_pcIsValid : decode 0b00000000000000000000000000000011 = .instr .pcIsValid := by decide
theorem test_decode_segSof : decode 0b00000000000000000000000000010000 = .instr .segSof := by decide
theorem test_decode_segJfif : decode 0b00000000000000000000000000010001 = .instr .segJfif := by decide
theorem test_decode_segLse : decode 0b00000000000000000000000000010010 = .instr .segLse := by decide
theorem test_decode_segApp8 : decode 0b00000000000000000000000000010011 = .instr .segApp8 := by decide
theorem test_decode_segSos : decode 0b00000000000000000000000000010100 = .instr .segSos := by decide

/-- The words of section 2.12 that select nothing, each rejected by name. -/
theorem test_decode_illegal :
    decode 0x00000000 = .illegal (.illegalOpcode 0x00) ∧ decode 0x00000004 = .illegal (.illegalOpcode 0x04) ∧
    decode 0x000000FF = .illegal (.illegalOpcode 0xFF) ∧ decode 0x00000101 = .illegal (.reservedBitsSet 1) ∧
    decode 0x80000012 = .illegal (.reservedBitsSet 0x800000) := by decide

theorem test_decodeTableWord : decodeTableWord 32 0x13 = some .segApp8 ∧ decodeTableWord 32 0x15 = none := by decide

/-- Triples of section 3: `wr MSV, 255`, `rdb 1`, `wrt 0, 0xFF`, `skipz RESULT, 1`; and two that encode nothing. -/
theorem test_decodeAction :
    decodeAction ⟨.wr, 0x02, 0xFF⟩ = some (.wr 0x02 0xFF) ∧ decodeAction ⟨.rdb, 1, 0⟩ = some (.rdb 1) ∧
    decodeAction ⟨.wrt, 0, 0xFF⟩ = some (.wrt 0 0xFF) ∧ decodeAction ⟨.skipz, 0x1E, 1⟩ = some (.skipz 0x1E 1) ∧
    decodeAction ⟨.wr, 0x100, 0⟩ = none ∧ decodeAction ⟨.wrt, 0, 0x100⟩ = none := by decide

/-! ### WellFormed refuses -/

theorem smoke_rdb_outOfRange : (HostAction.rdb 195089).wellFormed = false ∧ (HostAction.rdb 195088).wellFormed = true := by
  decide

theorem smoke_wrt_outOfRange :
    (HostAction.wrt 195075 0).wellFormed = false ∧ (HostAction.wrt 195074 0).wellFormed = true := by decide

theorem smoke_config_illegal :
    ({ defaultConfig with maxNearTable := [(5, 5)] } : Config).legal = false ∧
    ({ defaultConfig with maxNearTable := [(5, 4)] } : Config).legal = true := by decide

/-! ### Commands -/

/-- Section 2.3: MSV = 255, NEAR = 3. -/
theorem test_pcDefault : look (exec .pcDefault (withRegs { Regs.reset with msv := 255, near := 3 }))
    (fun s => (derivedSet s, status s)) = some ([255, 12, 22, 42, 64], 0) := by decide

/-- Section 2.3: MSV = 255, NEAR = 128 is above MAX_NEAR(255) = 127. -/
theorem test_pcDefault_violation : look (exec .pcDefault (withRegs { Regs.reset with msv := 255, near := 128 }))
    (fun s => (derivedSet s, status s)) = some ([0, 0, 0, 0, 0], 0x102) := by decide

/-- Section 2.4. -/
theorem test_pcIsDefault : look (exec .pcIsDefault State.reset) (fun s => s.regs.result) = some 1 := by decide

/-- Section 2.4: RESET alone is not the default set. -/
theorem test_pcIsDefault_reset_alone :
    look (exec .pcIsDefault (withRegs { Regs.reset with pReset := 64 })) (fun s => s.regs.result) = some 0 := by decide

/-- Section 1, S8: T2 = 2 is below the default T1 = 3. -/
theorem test_pcIsValid_rejects : look (exec .pcIsValid (withRegs { Regs.reset with mcv := 255, pT2 := 2 }))
    (fun s => (s.regs.result, status s)) = some (0, 0) := by decide

/-- Section 2.5: RESET = 300 is within max(255, 1000). -/
theorem test_pcIsValid_accepts : look (exec .pcIsValid (withRegs { Regs.reset with mcv := 1000, pReset := 300 }))
    (fun s => s.regs.result) = some 1 := by decide

/-- Section 2.7: height before width. -/
theorem test_segSof : look
    (exec .segSof (withRegs { Regs.reset with fWidth := 0x1234, fHeight := 0xABCD, fBps := 16, fNf := 1 }))
    (fun s => (s.segment, s.regs.segCode)) =
      some ([0x10, 0xAB, 0xCD, 0x12, 0x34, 0x01, 0x01, 0x11, 0x00], 0xF7) := by decide

/-- Section 2.7: 255 components. -/
theorem test_segSof_violation : look (exec .segSof (withRegs { Regs.reset with fBps := 8, fNf := 255 }))
    (fun s => (status s, s.regs.segLen)) = some (0x102, 0) := by decide

/-- Section 3, P4 at h = 10. -/
theorem test_segJfif : look (exec .segJfif sample) (fun s => (s.segment, s.regs.segCode)) =
    some ([0x4A, 0x46, 0x49, 0x46, 0x00, 0x01, 0x02, 0x01, 0x00, 0x48, 0x00, 0x48, 0x01, 0x01, 0xFF, 0x00, 0x80],
      0xE0) := by decide

/-- Section 2.8: width 1, no buffer, under both policies. -/
theorem test_segJfif_absent :
    look (exec .segJfif { sample with regs := { sampleRegs with jTpres := 0 } }) status = some 0x001 ∧
    look (exec .segJfif
      { sample with
        regs := { sampleRegs with jTpres := 0 }
        config := { defaultConfig with thumbPolicy := .asObserved } }) status = some 0x102 := by decide

/-- Section 2.9. -/
theorem test_segLse : look
    (exec .segLse
      (withRegs { Regs.reset with pMaxval := 4095, pT1 := 18, pT2 := 67, pT3 := 276, pReset := 64 })) State.segment =
    some [0x01, 0x0F, 0xFF, 0x00, 0x12, 0x00, 0x43, 0x01, 0x14, 0x00, 0x40] := by decide

/-- Section 2.10. -/
theorem test_segApp8 : look (exec .segApp8 (withRegs { Regs.reset with xform := 255 })) State.segment =
    some [0x6D, 0x72, 0x66, 0x78, 0xFF] := by decide

/-- Section 2.11: S_CIDX = 0x8000 is negative. -/
theorem test_segSos_all : look
    (exec .segSos (withRegs { Regs.reset with sCidx := 0x8000, sNs := 2, near := 3, sIlv := 1 })) State.segment =
    some [0x02, 0x01, 0x00, 0x02, 0x00, 0x03, 0x01, 0x00] := by decide

/-- Section 2.11: S_CIDX = 0x00FF is the largest single component, 0x0100 a violation. -/
theorem test_segSos_single :
    look (exec .segSos (withRegs { Regs.reset with sCidx := 0x00FF, near := 3, sIlv := 1 })) State.segment =
      some [0x01, 0xFF, 0x00, 0x03, 0x01, 0x00] ∧
    look (exec .segSos (withRegs { Regs.reset with sCidx := 0x0100 })) status = some 0x102 := by decide

/-! ### Host actions -/

/-- Section 2.12: `wr NEAR, 0x12345` keeps 8 bits. -/
theorem test_write_truncates : look (step (ready (.wr 0x03 0x12345) State.reset)) (fun s => readIndex s.regs 0x03) =
    some 0x45 := by decide

/-- Section 2.12: `wr O_T1, 5` is ignored, `rd 0x21` returns 0. -/
theorem test_read_only_and_reserved :
    look (step (ready (.wr 0x1A 5) State.reset)) (fun s => readIndex s.regs 0x1A) = some 0 ∧
    look (step (ready (.rd 0x21) sample)) State.observed = some [.register 0x21 0] := by decide

/-- Section 2.12: `wr CMD, 0x00000101`. -/
theorem test_illegal_command : look (step (ready (.wr 0x00 0x101) State.reset)) (fun s => (status s, s.regs.cmd)) =
    some (0x103, 0x101) := by decide

/-- Section 2.12: an OK command after a violation leaves STATUS = 0x100. -/
theorem test_fault_is_sticky : look (step (ready (HostAction.cmd .segApp8) faulted)) status = some 0x100 := by decide

/-- Section 2.12: `rdb 195089` is refused. -/
theorem test_rdb_refused : step (ready (.rdb 195089) State.reset) = .refused (.segBufOffsetOutOfRange 195089) := by
  rfl

/-- A THUMB write is never refused (R172): the last offset of the window stores, the next one stores nothing. -/
theorem test_wrt_window :
    look (step (ready (.wrt 195074 1) State.reset)) State.thumb = some [(195074, 1)] ∧
    look (step (ready (.wrt 195075 1) State.reset)) State.thumb = some [] := by decide

/-- Section 3, P3 at h = 4: a taken `skipz RESULT, 1`. -/
theorem test_skip_taken : look (step (ready (.skipz 0x1E 1) State.reset)) State.hostIndex = some 2 := by decide

/-! ### Witnesses: a concrete state and operands that meet the hypotheses of each statement -/

theorem built_inv : built.Inv where
  segWf := by decide
  thumbWf := by decide
  segInside := by decide
  thumbInside := by decide
  lenInside := by decide
  contentHeld := by decide
  codeLegal := by decide
  faultRecorded := by decide
  markerKnown := by decide
  derivedSet := .inl (by decide)
  configLegal := by decide

/-- `ready` writes the host's program and index only. -/
theorem ready_inv (a : HostAction) : (ready a built).Inv where
  segWf := built_inv.segWf
  thumbWf := built_inv.thumbWf
  segInside := built_inv.segInside
  thumbInside := built_inv.thumbInside
  lenInside := built_inv.lenInside
  contentHeld := built_inv.contentHeld
  codeLegal := built_inv.codeLegal
  faultRecorded := built_inv.faultRecorded
  markerKnown := built_inv.markerKnown
  derivedSet := built_inv.derivedSet
  configLegal := built_inv.configLegal

theorem witness_StepRunsDecodedCommand :
    nextAction (ready (.wr cmdIndex 0x14) sample) = some (.wr cmdIndex 0x14) ∧ decode 0x14 = .instr .segSos := by decide

theorem witness_DecodeEncodeAgree :
    Instr.segSos.wellFormed = true ∧ decode 0x14 = .instr .segSos ∧ ¬∃ i, decode 0x15 = .instr i := by
  refine ⟨by decide, by decide, ?_⟩
  rintro ⟨i, h⟩
  cases i <;> revert h <;> decide

/-- The smallest and largest illegal words, an unused OP next to the map, and a legal word. -/
theorem witness_IllegalCommandWords :
    nextAction (ready (.wr cmdIndex 0x00) sample) = some (.wr cmdIndex 0x00) ∧
    (0x00000000 : Word).toNat % 256 ∉ [0x01, 0x02, 0x03, 0x10, 0x11, 0x12, 0x13, 0x14] ∧
    (0x00000015 : Word).toNat % 256 ∉ [0x01, 0x02, 0x03, 0x10, 0x11, 0x12, 0x13, 0x14] ∧
    (0x00000101 : Word).toNat / 256 ≠ 0 ∧ (0xFFFFFF14 : Word).toNat / 256 ≠ 0 ∧
    (0x00000014 : Word).toNat % 256 ∈ [0x01, 0x02, 0x03, 0x10, 0x11, 0x12, 0x13, 0x14] ∧
    (0x00000014 : Word).toNat / 256 = 0 := by decide

theorem witness_HostActionTriplesRoundTrip : decodeAction ⟨.wrt, 195074, 255⟩ = some (.wrt 195074 255) := by decide

/-- An RW register, an RO register, the first and last reserved index, a read. -/
theorem witness_RegisterAccessRules :
    nextAction (ready (.wr 0x18 0xFFFFFFFF) sample) = some (.wr 0x18 0xFFFFFFFF) ∧ Reg.ofIndex 0x18 = some .sCidx ∧
    Reg.sCidx.access = .rw ∧ nextAction (ready (.wr 0x20 1) sample) = some (.wr 0x20 1) ∧
    Reg.ofIndex 0x20 = some .segLen ∧ Reg.segLen.access = .ro ∧ Reg.ofIndex 0x21 = none ∧ Reg.ofIndex 0xFF = none ∧
    nextAction (ready (.rd 0xFF) sample) = some (.rd 0xFF) ∧ Reg.ofIndex 0x00 = some .cmd := by decide

theorem witness_FaultIsSticky :
    nextAction (ready (.wr cmdIndex 0x13) faulted) = some (.wr cmdIndex 0x13) ∧
    look (step (ready (.wr cmdIndex 0x13) faulted)) (fun t => t.regs.code) = some 0 ∧
    look (step (ready (.wr cmdIndex 0x00) sample)) (fun t => t.regs.code) = some 3 ∧
    (ready (.wr cmdIndex 0x13) faulted).regs.fault = 1 ∧ nextAction (ready .reset faulted) = some .reset := by decide

theorem witness_FailedCommandWritesOnlyStatus :
    nextAction (ready (.wr cmdIndex 0x01) State.reset) = some (.wr cmdIndex 0x01) ∧
    look (step (ready (.wr cmdIndex 0x01) State.reset)) (fun t => t.regs.code) = some 2 ∧
    look (step (ready (.wr cmdIndex 0x13) State.reset)) (fun t => t.regs.code) = some 0 := by decide

theorem witness_StatusNeverBlocksCommands : ∃ t, exec .segJfif sample = .next t ∧ t.regs.code = 0 := ⟨_, rfl, rfl⟩

theorem witness_ResetClearsTheBlock :
    nextAction (ready .reset faulted) = some .reset ∧
    look (step (ready .reset faulted)) (fun t => t.regs.fault) = some 0 ∧ (ready .reset faulted).regs.fault = 1 := by
  decide

theorem witness_StepKeepsInvariant :
    (ready (HostAction.cmd .segJfif) built).Inv ∧
    ∃ t, step (ready (HostAction.cmd .segJfif) built) = .next t ∧ t.regs.segLen = 17 :=
  ⟨ready_inv _, _, rfl, rfl⟩

theorem witness_ClampSnapsToLowBound :
    ((255 : Int) < 256 ∨ (256 : Int) < 5) ∧ ((5 : Int) ≤ 255 ∧ (255 : Int) ≤ 255) ∧ (3 : Int) < 9 := by decide

theorem witness_MaxNearIsBounded : defaultConfig.legal = true ∧ maxNear defaultConfig 1 = 0 ∧
    maxNear defaultConfig 509 = 254 ∧ maxNear defaultConfig 510 = 255 ∧ maxNear defaultConfig 65535 = 255 := by decide

theorem witness_DerivedFieldsFit :
    (65535 ≤ 65535 ∧ 255 ≤ 255) ∧ defaultPc 65535 255 = ⟨65535, 783, 1342, 2061, 64⟩ ∧
    defaultPc 0 5 = ⟨0, 6, 6, 6, 64⟩ := by decide

/-- Both branches at their edge, and both outcomes of a clamp. -/
theorem witness_DerivedThresholdsFollowTheFormula :
    (128 ≤ 128 ∧ 127 < 128) ∧ defaultPc 128 0 = ⟨128, 3, 7, 21, 64⟩ ∧ defaultPc 127 0 = ⟨127, 2, 3, 10, 64⟩ ∧
    defaultPc 128 64 = ⟨128, 65, 65, 65, 64⟩ := by decide

theorem witness_DefaultsAreMonotoneAndLegal :
    defaultConfig.legal = true ∧ 0 ≤ maxNear defaultConfig 1 ∧ 255 ≤ maxNear defaultConfig 65535 := by decide

theorem witness_DerivedSetPassesValidation :
    sample.config.legal = true ∧
    ∃ t, exec .pcDefault sample = .next t ∧ t.regs.code = 0 ∧ ∃ u : State, u.regs.pMaxval = t.regs.oMaxval ∧
      u.regs.pT1 = t.regs.oT1 ∧ u.regs.pT2 = t.regs.oT2 ∧ u.regs.pT3 = t.regs.oT3 ∧ u.regs.pReset = t.regs.oReset ∧
      u.regs.mcv = sample.regs.msv ∧ u.regs.near = sample.regs.near :=
  ⟨by decide, _, rfl, rfl,
    withRegs { sampleRegs with pMaxval := 255, pT1 := 3, pT2 := 7, pT3 := 21, pReset := 64 },
    by decide, by decide, by decide, by decide, by decide, by decide, by decide⟩

/-- Both causes of the violation, and the largest allowed error. -/
theorem witness_PcDefaultDerivesThePreset :
    State.reset.regs.msv.toNat = 0 ∧
    maxNear defaultConfig (255 : Half).toNat < (128 : Byte).toNat ∧ (255 : Half).toNat ≠ 0 ∧
    (127 : Byte).toNat ≤ maxNear defaultConfig (255 : Half).toNat := by decide

theorem witness_ZeroFieldsAreNotChecked : isValid ⟨255, 3, 7, 21, 64⟩ 255 0 = true := by decide

/-- A legal set; a state that another command has changed and that still holds it; the host's read of RESULT, a write to
the register before and after P_*, and the first and last index that do not keep it. -/
theorem witness_ValidatedSetIsTheSetEmitted :
    (∃ t, exec .pcIsValid sample = .next t ∧ t.regs.result = 1) ∧
    (candidate built.regs = candidate sample.regs ∧ built.segBuf ≠ sample.segBuf) ∧
    (nextAction (ready (.rd 0x1E) built) = some (.rd 0x1E) ∧ (HostAction.rd 0x1E).keepsCandidate = true ∧
      ∃ t, step (ready (.rd 0x1E) built) = .next t) ∧
    (HostAction.wr 0x04 1).keepsCandidate = true ∧ (HostAction.wr 0x0A 1).keepsCandidate = true ∧
    (HostAction.wr 0x05 1).keepsCandidate = false ∧ (HostAction.wr 0x09 1).keepsCandidate = false ∧
    HostAction.reset.keepsCandidate = false :=
  ⟨⟨_, rfl, rfl⟩, by decide, ⟨rfl, rfl, _, rfl⟩, by decide, by decide, by decide, by decide, rfl⟩

/-- Each cause of the violation, and both ends of the legal component counts with a first and a last component. -/
theorem witness_SegSofBuildsFrameHeader :
    (0 : Byte).toNat = 0 ∧ 254 < (255 : Byte).toNat ∧ (8 : Byte).toNat ≠ 0 ∧ (1 : Byte).toNat ≠ 0 ∧
    (254 : Byte).toNat ≤ 254 ∧ sample.regs.fBps.toNat ≠ 0 ∧ sample.regs.fNf.toNat ≠ 0 ∧ sample.regs.fNf.toNat ≤ 254 ∧
    (1 ≤ 1 ∧ 1 ≤ sample.regs.fNf.toNat) ∧ (1 ≤ 3 ∧ 3 ≤ sample.regs.fNf.toNat) := by decide

/-- The violation, the copy with its first and last byte, no width, and a check that does not allow the copy. -/
theorem witness_SegJfifBuildsApp0 :
    2 < (3 : Byte).toNat ∧ State.reset.regs.jXdens.toNat = 0 ∧
    (sample.regs.jUnits.toNat ≤ 2 ∧ sample.regs.jXdens.toNat ≠ 0 ∧ sample.regs.jYdens.toNat ≠ 0 ∧
      sample.config.thumbPolicy = .intent ∧ sample.regs.jTpres = 1) ∧
    (0 < 3 * sample.regs.jXthumb.toNat * sample.regs.jYthumb.toNat ∧
      2 < 3 * sample.regs.jXthumb.toNat * sample.regs.jYthumb.toNat) ∧
    State.reset.regs.jXthumb.toNat = 0 ∧ (0 < sample.regs.jXthumb.toNat ∧ State.reset.regs.jTpres = 0) := by decide

/-- The preconditions hold for `sample`; its register variants below meet each of the five clauses. -/
theorem witness_JfifThumbnailPolicy :
    (sample.regs.jUnits.toNat ≤ 2 ∧ sample.regs.jXdens.toNat ≠ 0 ∧ sample.regs.jYdens.toNat ≠ 0) ∧
    ({ sampleRegs with jXthumb := 0 } : Regs).jXthumb.toNat = 0 ∧ 0 < sample.regs.jXthumb.toNat ∧
    ({ sampleRegs with jTpres := 0 } : Regs).jTpres = 0 ∧ sample.regs.jTpres = 1 ∧
    sample.config.thumbPolicy = .intent ∧
    ({ defaultConfig with thumbPolicy := .asObserved } : Config).thumbPolicy = .asObserved := by decide

/-- Both ends of each of the three ranges of the scan index, and a first and last component. -/
theorem witness_SegSosBuildsScanHeader :
    255 < (0x0100 : Half).toInt ∧ 255 < (0x7FFF : Half).toInt ∧ (0xFFFF : Half).toInt < 0 ∧ (0x8000 : Half).toInt < 0 ∧
    (0 ≤ (0x0000 : Half).toInt ∧ (0x0000 : Half).toInt ≤ 255) ∧
    (0 ≤ (0x00FF : Half).toInt ∧ (0x00FF : Half).toInt ≤ 255) ∧
    sample.regs.sCidx.toInt < 0 ∧ 0 < sample.regs.sNs.toNat ∧ 2 < sample.regs.sNs.toNat := by decide

theorem witness_ContentLengths :
    (∃ t, exec .segSof sample = .next t ∧ t.regs.code = 0) ∧ (∃ t, exec .segJfif sample = .next t ∧ t.regs.code = 0) ∧
    (∃ t, exec .segLse sample = .next t) ∧ (∃ t, exec .segApp8 sample = .next t) ∧
    ∃ t, exec .segSos sample = .next t ∧ t.regs.code = 0 :=
  ⟨⟨_, rfl, rfl⟩, ⟨_, rfl, rfl⟩, ⟨_, rfl⟩, ⟨_, rfl⟩, ⟨_, rfl, rfl⟩⟩

/-- A success and a failure, for PC_DEFAULT, for a test and for a segment command. -/
theorem witness_OnlyPcDefaultWritesTheDerivedSet :
    (∃ t, exec .pcDefault sample = .next t ∧ t.regs.code = 0) ∧
    (∃ t, exec .pcDefault State.reset = .next t ∧ t.regs.code ≠ 0) ∧ ∃ t, exec .segSos sample = .next t :=
  ⟨⟨_, rfl, rfl⟩, ⟨_, rfl, by decide⟩, ⟨_, rfl⟩⟩

theorem witness_OnlyTheTestsWriteResult :
    (∃ t, exec .pcIsDefault sample = .next t) ∧ (∃ t, exec .pcIsValid sample = .next t) ∧
    ∃ t, exec .segLse sample = .next t := ⟨⟨_, rfl⟩, ⟨_, rfl⟩, ⟨_, rfl⟩⟩

theorem witness_SegmentRegistersFollowTheLastSegment :
    (∃ t, exec .segApp8 sample = .next t ∧ buildsSegment .segApp8 = true ∧ t.regs.code = 0 ∧ 4 < t.regs.segLen.toNat) ∧
    (∃ t, exec .segSof State.reset = .next t ∧ t.regs.code ≠ 0) ∧
    ∃ t, exec .pcIsValid built = .next t ∧ buildsSegment .pcIsValid = false :=
  ⟨⟨_, rfl, rfl, rfl, by decide⟩, ⟨_, rfl, by decide⟩, ⟨_, rfl, rfl⟩⟩

theorem witness_CommandFrame :
    (∃ t, exec .segApp8 built = .next t ∧ t.regs.segLen.toNat ≤ 5) ∧
    ∃ t, exec .pcDefault built = .next t ∧ buildsSegment .pcDefault = false := ⟨⟨_, rfl, by decide⟩, ⟨_, rfl, rfl⟩⟩

theorem witness_CommandsDependOnlyOnOperands :
    operandsAgree .segJfif sample.regs built.regs ∧ sample.config = built.config ∧ sample.thumb = built.thumb ∧
    look (exec .segJfif sample) (fun t => t.regs.code) = some 0 := by
  refine ⟨?_, rfl, rfl, by decide⟩
  exact ⟨rfl, rfl, rfl, rfl, rfl, rfl, rfl⟩

theorem witness_CommandsAreIdempotent :
    nextAction (ready (.wr cmdIndex 0x11) sample) = some (.wr cmdIndex 0x11) ∧ ∃ t, exec .segJfif sample = .next t :=
  ⟨by decide, _, rfl⟩

theorem witness_EmitStoresByteByByte : Memory.wf [(0, 0x6D), (1, 0x72), (195088, 0x66)] := by decide

/-- The last content byte, the first and last drawn byte, the first refused offset. -/
theorem witness_SegBufReads :
    (nextAction (ready (.rdb 4) built) = some (.rdb 4) ∧ (ready (.rdb 4) built).Inv ∧ 4 < built.regs.segLen.toNat) ∧
    (nextAction (ready (.rdb 5) built) = some (.rdb 5) ∧ built.regs.segLen.toNat ≤ 5 ∧ 5 < segCap) ∧
    (nextAction (ready (.rdb 195088) built) = some (.rdb 195088) ∧ 195088 < segCap) ∧
    (nextAction (ready (.rdb 195089) built) = some (.rdb 195089) ∧ segCap ≤ 195089) :=
  ⟨⟨rfl, ready_inv _, by decide⟩, ⟨rfl, by decide, by decide⟩, ⟨rfl, by decide⟩, ⟨rfl, by decide⟩⟩

theorem witness_ReadsHaveNoSideEffect :
    nextAction (ready (.rd 0x20) built) = some (.rd 0x20) ∧
    nextAction (ready (.skipz 0x1E 1) built) = some (.skipz 0x1E 1) ∧ (∃ t, step (ready (.rd 0x20) built) = .next t) ∧ (∃ t, step (ready (.rdb 5) built) = .next t) ∧
    ∃ t, step (ready (.skipz 0x1E 1) built) = .next t := ⟨rfl, rfl, ⟨_, rfl⟩, ⟨_, rfl⟩, ⟨_, rfl⟩⟩

theorem witness_SegmentSurvivesHostAccesses :
    (ready (.wrt 0 0x11) built).Inv ∧ (∃ t, step (ready (.wrt 0 0x11) built) = .next t) ∧
    nextAction (ready (.wrt 0 0x11) built) ≠ some .reset ∧
    ∀ w, nextAction (ready (.wrt 0 0x11) built) ≠ some (.wr cmdIndex w) :=
  ⟨ready_inv _, ⟨_, rfl⟩, by decide, fun w h => by cases h⟩

theorem witness_ThumbWrites :
    (nextAction (ready (.wrt 195074 1) built) = some (.wrt 195074 1) ∧ 195074 < thumbCap) ∧
    (nextAction (ready (.wrt 195075 1) built) = some (.wrt 195075 1) ∧ thumbCap ≤ 195075) := by decide

/-- A taken and an untaken skip, and a command. -/
theorem witness_HostIndexAdvances :
    (nextAction (ready (.skipz 0x1E 1) built) = some (.skipz 0x1E 1) ∧ readIndex built.regs 0x1E = 0 ∧
      readIndex built.regs 0x20 ≠ 0) ∧ ∃ t, step (ready (.skipz 0x1E 1) built) = .next t :=
  ⟨by decide, _, rfl⟩

/-- The last read that answers, the first that is refused, and a THUMB write outside the window. -/
theorem witness_StepStopsOnlyOnMissingOffsets :
    (nextAction (ready (.rdb 195088) built) = some (.rdb 195088) ∧ 195088 < segCap) ∧
    (nextAction (ready (.rdb 195089) built) = some (.rdb 195089) ∧ segCap ≤ 195089) ∧
    ∀ k, nextAction (ready (.wrt 195075 1) built) ≠ some (.rdb k) :=
  ⟨by decide, by decide, fun _ => nofun⟩

theorem witness_IdleBlockHoldsItsState : State.reset.program.length ≤ State.reset.hostIndex := by decide

theorem witness_OnlyLargeThumbnailsCannotBeFramed :
    (∃ t, exec .segApp8 sample = .next t ∧ buildsSegment .segApp8 = true ∧ t.regs.code = 0) ∧
    65519 < 3 * (255 : Byte).toNat * (255 : Byte).toNat ∧ 65533 < (List.replicate 65534 (0 : Byte)).length ∧
    (List.replicate 65533 (0 : Byte)).length ≤ 65533 :=
  ⟨⟨_, rfl, rfl, rfl⟩, by decide, by rw [List.length_replicate]; decide, by rw [List.length_replicate]⟩

end Sys2Proof.Tests
end

/-! ## Proofs: the scope statements (00_scope.md R10)

What a run of byte stores leaves in a byte space, and what a command leaves unchanged. -/

namespace Sys2Proof.Machine

/-! ### Byte stores at the offsets 0 to n - 1, in turn -/

/-- Byte stores in turn keep the canonical form. -/
theorem Memory.wf_foldl_write {m : Memory} (hm : m.wf) (f : Nat → Byte) (n : Nat) :
    Memory.wf ((List.range n).foldl (fun m k => m.write k (f k)) m) := by
  induction n with
  | zero => exact hm
  | succ n ih =>
    rw [List.range_succ, List.foldl_append]
    exact Memory.wf_write ih n (f n)

/-- Byte stores in turn, read back: the stored byte below `n`, the old byte elsewhere. -/
theorem Memory.get?_foldl_write (m : Memory) (f : Nat → Byte) (n j : Nat) :
    Memory.get? ((List.range n).foldl (fun m k => m.write k (f k)) m) j =
      if j < n then some (f j) else m.get? j := by
  induction n with
  | zero => rfl
  | succ n ih =>
    rw [List.range_succ, List.foldl_append, List.foldl_cons, List.foldl_nil, Memory.get?_write, ih]
    rcases Nat.lt_trichotomy j n with h | rfl | h
    · rw [if_neg (by omega), if_pos h, if_pos (by omega)]
    · rw [if_pos rfl, if_pos (by omega)]
    · rw [if_neg (by omega), if_neg (by omega), if_neg (by omega)]

/-- Settles O41: both sides are in canonical form and read the same at every offset. -/
theorem emitStoresByteByByte : Obligations.EmitStoresByteByByte := by
  unfold Obligations.EmitStoresByteByByte
  intro m content hm
  refine Memory.ext_of_wf (Memory.wf_store hm content)
    (Memory.wf_foldl_write hm (fun k => content.getD k 0) content.length) fun j => ?_
  rw [Memory.get?_store, Memory.get?_foldl_write]
  by_cases hj : j < content.length
  · rw [if_pos hj, if_pos hj, List.getElem?_eq_getElem hj, List.getD_eq_getElem _ _ hj]
  · rw [if_neg hj, if_neg hj]

/-! ### What a command stores in SEG_BUF -/

/-- A command that builds no segment, or that fails, keeps the segment the host reads. -/
theorem commandEffect_keeps_segment {i : Instr} {s t : State} (he : CommandEffect i s t)
    (h : buildsSegment i = false ∨ t.regs.code ≠ 0) :
    t.regs.segLen = s.regs.segLen ∧ t.segBuf = s.segBuf ∧ t.drawEpoch = s.drawEpoch := by
  cases he with
  | failed o _ ht => subst ht; exact ⟨rfl, rfl, rfl⟩
  | derived _ _ ht => subst ht; exact ⟨rfl, rfl, rfl⟩
  | tested b _ ht => subst ht; exact ⟨rfl, rfl, rfl⟩
  | built code content hi _ ht =>
    have hb : buildsSegment i = true := by
      rcases hi with ⟨rfl, -⟩ | ⟨rfl, -⟩ | ⟨rfl, -⟩ | ⟨rfl, -⟩ | ⟨rfl, -⟩ <;> rfl
    have h0 : t.regs.code = 0 := by subst ht; rfl
    rcases h with h | h
    · rw [hb] at h; cases h
    · exact absurd h0 h

/-- No command stores a byte at or above the SEG_LEN it leaves. -/
theorem commandEffect_keeps_segBuf_above {i : Instr} {s t : State} (he : CommandEffect i s t) {k : Nat}
    (hk : t.regs.segLen.toNat ≤ k) : t.segBuf.get? k = s.segBuf.get? k := by
  cases he with
  | failed o _ ht => subst ht; rfl
  | derived _ _ ht => subst ht; rfl
  | tested b _ ht => subst ht; rfl
  | built code content _ hlen ht =>
    subst ht
    rw [segLen_emit .ok code content s hlen] at hk
    rw [finish_segBuf, emit_segBuf, Memory.get?_store, if_neg (Nat.not_lt.2 hk)]

/-- Settles O38: by the four effects a command can have. -/
theorem commandFrame : Obligations.CommandFrame := by
  unfold Obligations.CommandFrame
  intro i s t h
  have he := exec_cases h
  refine ⟨?_, fun k hk => ?_, fun hkeep k => ?_⟩
  · cases he with
    | failed o _ ht => subst ht; rfl
    | derived _ _ ht => subst ht; rfl
    | tested b _ ht => subst ht; rfl
    | built code content _ _ ht => subst ht; rfl
  · rcases hk with hk | hkeep
    · exact commandEffect_keeps_segBuf_above he hk
    · obtain ⟨-, hbuf, -⟩ := commandEffect_keeps_segment he hkeep
      rw [hbuf]
  · obtain ⟨hlen, hbuf, hepoch⟩ := commandEffect_keeps_segment he hkeep
    exact segByte_congr hlen hbuf hepoch k

end Sys2Proof.Machine

/-! ## Proofs: the register file, what a command and a step keep, and the invariant (10_state.md) -/

namespace Sys2Proof.Machine

/-! ### Derived sets and the bound on MAX_NEAR -/

/-- The last threshold of a derived set is at most m, or the least value T1 can have where that is above m. -/
theorem defaultPc_t3_le (m n : Nat) : (defaultPc m n).t3 ≤ max m (n + 1) := by
  obtain ⟨a, b, c, h1, h2, h3⟩ := defaultPc_shape m n
  have ht1 := clamp_cases a (n + 1) m
  have ht2 := clamp_cases b (defaultPc m n).t1 m
  have ht3 := clamp_cases c (defaultPc m n).t2 m
  rw [← h1] at ht1
  rw [← h2] at ht2
  rw [← h3] at ht3
  omega

/-- 40_threshold.md R102: an entry of a legal table, and the default, stay below m. -/
theorem maxNear_lt {c : Config} (hc : c.legal = true) {m : Nat} (hm : 1 ≤ m) : maxNear c m < m := by
  unfold maxNear
  cases hl : c.maxNearTable.lookup m with
  | none =>
    show min 255 (m / 2) < m
    omega
  | some v =>
    obtain ⟨l₁, l₂, hmem, -⟩ := List.lookup_eq_some_iff.1 hl
    have hentry := List.all_eq_true.1 hc (m, v) (by simp [hmem])
    have hle : v.toNat + 1 ≤ m := of_decide_eq_true hentry
    exact hle

/-- 40_threshold.md R105: no field of a derived set needs more than the 16 bits of its register. -/
theorem storeDefaults_toNat (s : State) {m n : Nat} (hm : m ≤ 65535) (hn : n ≤ 255) :
    (storeDefaults (defaultPc m n) s).regs.oMaxval.toNat = m ∧
    (storeDefaults (defaultPc m n) s).regs.oT1.toNat = (defaultPc m n).t1 ∧
    (storeDefaults (defaultPc m n) s).regs.oT2.toNat = (defaultPc m n).t2 ∧
    (storeDefaults (defaultPc m n) s).regs.oT3.toNat = (defaultPc m n).t3 ∧
    (storeDefaults (defaultPc m n) s).regs.oReset.toNat = stdReset := by
  obtain ⟨-, h12, h23⟩ := defaultPc_rising m n
  have h3 := defaultPc_t3_le m n
  simp only [storeDefaults_regs, defaultPc_maxval, defaultPc_reset, BitVec.toNat_ofNat]
  refine ⟨?_, ?_, ?_, ?_, rfl⟩ <;> exact Nat.mod_eq_of_lt (by omega)

/-! ### CODE and FAULT of an outcome (10_state.md R25, R26) -/

theorem outcomeCode_le_three (o : CommandOutcome) : o.code.toNat ≤ 3 := by cases o <;> decide

theorem faultAfter_of_two_le_code {o : CommandOutcome} (h : 2 ≤ o.code.toNat) (f : BitVec 1) : faultAfter o f = 1 := by
  cases o with
  | ok => exact absurd h (by decide)
  | invalidParameters => exact absurd h (by decide)
  | contractViolation => rfl
  | illegalCommand => rfl

theorem faultAfter_of_code_lt_two {o : CommandOutcome} (h : o.code.toNat < 2) (f : BitVec 1) : faultAfter o f = f := by
  cases o with
  | ok => rfl
  | invalidParameters => rfl
  | contractViolation => exact absurd h (by decide)
  | illegalCommand => exact absurd h (by decide)

theorem faultAfter_one (o : CommandOutcome) : faultAfter o 1 = 1 := by cases o <;> rfl

/-! ### The invariant under each operation of the model -/

/-- The invariant looks at the registers, the two byte spaces and the parameters alone. -/
theorem inv_congr {s t : State} (h : s.Inv) (hr : t.regs = s.regs) (hb : t.segBuf = s.segBuf)
    (hm : t.thumb = s.thumb) (hc : t.config = s.config) : t.Inv := by
  cases s; cases t
  subst hr hb hm hc
  exact ⟨h.segWf, h.thumbWf, h.segInside, h.thumbInside, h.lenInside, h.contentHeld, h.codeLegal, h.faultRecorded,
    h.markerKnown, h.derivedSet, h.configLegal⟩

/-- A host write of a register reaches none of the fields the invariant speaks of (10_state.md R22). -/
theorem inv_afterWrite {s : State} (h : s.Inv) (idx : Byte) (v : Word) : (afterWrite idx v s).Inv where
  segWf := h.segWf
  thumbWf := h.thumbWf
  segInside := h.segInside
  thumbInside := h.thumbInside
  lenInside := by simpa using h.lenInside
  contentHeld := by simpa using h.contentHeld
  codeLegal := by simpa using h.codeLegal
  faultRecorded := by simpa using h.faultRecorded
  markerKnown := by simpa using h.markerKnown
  derivedSet := by simpa [Regs.derivedSetOk] using h.derivedSet
  configLegal := h.configLegal

theorem inv_storeThumb {s : State} (h : s.Inv) (a : Nat) (b : Byte) : (storeThumb a b s).Inv := by
  by_cases ha : a < thumbCap
  · rw [storeThumb_inside ha]
    refine { h with thumbWf := Memory.wf_write h.thumbWf a b, thumbInside := fun c hc => ?_ }
    rcases Memory.mem_write hc with rfl | hc
    · exact ha
    · exact h.thumbInside c hc
  · rw [storeThumb_outside (Nat.le_of_not_lt ha)]
    exact h

/-- Reset gives every register its reset value and empties SEG_BUF (70_reset_and_hazards.md R190). -/
theorem inv_resetBlock {s : State} (h : s.Inv) : (resetBlock s).Inv where
  segWf := List.Pairwise.nil
  thumbWf := h.thumbWf
  segInside := fun _ hc => absurd hc List.not_mem_nil
  thumbInside := h.thumbInside
  lenInside := Nat.zero_le _
  contentHeld := fun k hk => absurd hk (Nat.not_lt_zero k)
  codeLegal := Nat.zero_le _
  faultRecorded := fun h2 => absurd h2 (Nat.not_succ_le_zero 1)
  markerKnown := .inl ⟨rfl, rfl⟩
  derivedSet := .inl ⟨rfl, rfl, rfl, rfl, rfl⟩
  configLegal := h.configLegal

/-- Recording an outcome keeps the invariant: FAULT is set with the two codes that ask for it (10_state.md R26). -/
theorem inv_finish {s : State} (h : s.Inv) (o : CommandOutcome) : (finish o s).Inv :=
  { h with codeLegal := outcomeCode_le_three o, faultRecorded := fun h2 => faultAfter_of_two_le_code h2 _ }

theorem inv_setResult {s : State} (h : s.Inv) (b : Bool) : (setResult b s).Inv := { h with }

/-- The set PC_DEFAULT stores when its precondition holds is a derived set (40_threshold.md R106): a legal MAX_NEAR
keeps n + 1 at most m, so the rising thresholds end at most at m. -/
theorem inv_storeDefaults {s : State} (h : s.Inv) (hok : pcDefaultViolates s = false) :
    (storeDefaults (defaultPc (msvOperand s.regs) (nearOperand s.regs)) s).Inv := by
  refine { h with derivedSet := .inr ?_ }
  have hpre : ¬(s.regs.msv.toNat = 0 ∨ maxNear s.config s.regs.msv.toNat < s.regs.near.toNat) := by
    rw [← pcDefaultViolates_iff, hok]
    exact Bool.false_ne_true
  have hm := s.regs.msv.isLt
  have hn := s.regs.near.isLt
  have hmax := maxNear_lt h.configLegal (m := s.regs.msv.toNat) (by omega)
  obtain ⟨hlow, h12, h23⟩ := defaultPc_rising s.regs.msv.toNat s.regs.near.toNat
  have h3 := defaultPc_t3_le s.regs.msv.toNat s.regs.near.toNat
  obtain ⟨e0, e1, e2, e3, e4⟩ := storeDefaults_toNat s (m := s.regs.msv.toNat) (n := s.regs.near.toNat)
    (by omega) (by omega)
  rw [e0, e1, e2, e3, e4]
  exact ⟨by omega, h12, h23, by omega, rfl⟩

/-- A segment that fits SEG_BUF, under one of the five codes, keeps the invariant. -/
theorem inv_emit {s : State} (h : s.Inv) {code : Byte} {content : List Byte} (hcode : code ∈ markerCodes s.config)
    (hlen : content.length ≤ segCap) : (emit code content s).Inv := by
  have hl : (emit code content s).regs.segLen.toNat = content.length := segLen_emit .ok code content s hlen
  refine { h with
    segWf := Memory.wf_store h.segWf content
    segInside := fun c hc => ?_
    lenInside := hl ▸ hlen
    contentHeld := fun k hk => ?_
    markerKnown := .inr hcode }
  · rcases Memory.mem_store hc with hc | hc
    · exact Nat.lt_of_lt_of_le hc hlen
    · exact h.segInside c hc
  · have hk' : k < content.length := hl ▸ hk
    rw [emit_segBuf, Memory.get?_store, if_pos hk', List.getElem?_eq_getElem hk']
    rfl

/-! ### The invariant under a command and a step -/

theorem commandEffect_keeps_inv {i : Instr} {s t : State} (h : s.Inv) (he : CommandEffect i s t) : t.Inv := by
  cases he with
  | failed o _ ht => exact ht ▸ inv_finish h o
  | derived _ hok ht => exact ht ▸ inv_finish (inv_storeDefaults h hok) .ok
  | tested b _ ht => exact ht ▸ inv_finish (inv_setResult h b) .ok
  | built code content hi hlen ht =>
    have hcode : code ∈ markerCodes s.config := by
      rcases hi with ⟨-, rfl, -⟩ | ⟨-, rfl, -⟩ | ⟨-, rfl, -⟩ | ⟨-, rfl, -⟩ | ⟨-, rfl, -⟩ <;> simp [markerCodes]
    exact ht ▸ inv_finish (inv_emit h hcode hlen) .ok

theorem performCommand_keeps_inv {w : Word} {s t : State} (h : s.Inv) (ht : performCommand w s = .next t) : t.Inv := by
  rcases performCommand_cases ht with ⟨i, -, he⟩ | ⟨e, -, ht⟩
  · exact commandEffect_keeps_inv h he
  · exact ht ▸ inv_finish h .illegalCommand

/-- Settles O15, by the cases of a step: each operation a step is made of keeps the invariant. -/
theorem stepKeepsInvariant : Obligations.StepKeepsInvariant := by
  unfold Obligations.StepKeepsInvariant
  intro s t h hstep
  cases step_cases hstep with
  | idle _ ht => exact ht ▸ h
  | command w _ ht => exact performCommand_keeps_inv (inv_afterWrite h cmdIndex w) ht
  | write idx v _ _ ht => exact ht ▸ inv_afterWrite h idx v
  | read idx _ ht => exact ht ▸ inv_congr h rfl rfl rfl rfl
  | readByte k _ _ ht => exact ht ▸ inv_congr h rfl rfl rfl rfl
  | writeThumb a b _ ht => exact ht ▸ inv_congr (inv_storeThumb h a b) rfl rfl rfl rfl
  | skip idx k _ ht => exact ht ▸ inv_congr h rfl rfl rfl rfl
  | reset _ ht => exact ht ▸ inv_resetBlock (inv_congr h rfl rfl rfl rfl)

end Sys2Proof.Machine

/-! ## Proofs: the register map and the access rules (10_state.md R20 to R26, R35) -/

namespace Sys2Proof.Machine

/-! ### The register file by index -/

theorem ofIndex_eq_some_iff {idx : Byte} {reg : Reg} : Reg.ofIndex idx = some reg ↔ reg.index = idx := by
  constructor
  · intro h
    simpa using List.find?_some h
  · rintro rfl
    cases reg <;> rfl

theorem regIndex_le (reg : Reg) : reg.index.toNat ≤ 0x20 := by cases reg <;> decide

/-- The indices above 0x20 are reserved (10_state.md R21). -/
theorem ofIndex_reserved {idx : Byte} (h : 0x21 ≤ idx.toNat) : Reg.ofIndex idx = none := by
  refine Option.eq_none_iff_forall_ne_some.2 fun reg hreg => ?_
  have hle := regIndex_le reg
  rw [ofIndex_eq_some_iff.1 hreg] at hle
  omega

theorem readIndex_of_some {idx : Byte} {reg : Reg} (h : Reg.ofIndex idx = some reg) (r : Regs) :
    readIndex r idx = r.read reg := by simp only [readIndex, h]

theorem readIndex_of_none {idx : Byte} (h : Reg.ofIndex idx = none) (r : Regs) : readIndex r idx = 0 := by
  simp only [readIndex, h]

theorem writeIndex_of_some {idx : Byte} {reg : Reg} (h : Reg.ofIndex idx = some reg) (r : Regs) (v : Word) :
    writeIndex r idx v = r.write reg v := by simp only [writeIndex, h]

theorem writeIndex_of_none {idx : Byte} (h : Reg.ofIndex idx = none) (r : Regs) (v : Word) :
    writeIndex r idx v = r := by simp only [writeIndex, h]

/-! ### Reads and writes of one register -/

/-- STATUS as a number (10_state.md R24). -/
theorem statusWord_toNat : ∀ (code : BitVec 3) (fault : BitVec 1),
    (statusWord code fault).toNat = code.toNat + 256 * fault.toNat := by decide

/-- 10_state.md R22 (c): a write to an RO register stores nothing. -/
theorem write_ro {reg : Reg} (h : reg.access = .ro) (r : Regs) (v : Word) : r.write reg v = r := by
  cases reg <;> cases h <;> rfl

/-- 10_state.md R22 (a): a write to an RW register is read back cut to the width of the field. -/
theorem read_write_same {reg : Reg} (h : reg.access = .rw) (r : Regs) (v : Word) :
    ((r.write reg v).read reg).toNat = v.toNat % 2 ^ reg.width := by
  have hcut : ∀ n ≤ 32, ((v.setWidth n).setWidth 32).toNat = v.toNat % 2 ^ n := fun n hn => by
    rw [BitVec.toNat_setWidth_of_le hn, BitVec.toNat_setWidth]
  cases reg <;> cases h <;> exact hcut _ (by decide)

/-- A write reaches no other register. -/
theorem read_write_other {reg other : Reg} (h : other ≠ reg) (r : Regs) (v : Word) :
    (r.write reg v).read other = r.read other := by
  cases reg <;> cases other <;> first | rfl | exact absurd rfl h

/-- A register reads no bit outside its field. -/
theorem read_lt (r : Regs) (reg : Reg) : (r.read reg).toNat < 2 ^ reg.width := by
  have hfield : ∀ {n : Nat} (x : BitVec n), n ≤ 32 → (x.setWidth 32).toNat < 2 ^ n := fun x hn => by
    rw [BitVec.toNat_setWidth_of_le hn]
    exact x.isLt
  cases reg
  case cmd => exact r.cmd.isLt
  case status =>
    have hc := r.code.isLt
    have hf := r.fault.isLt
    show (statusWord r.code r.fault).toNat < 512
    rw [statusWord_toNat]
    omega
  all_goals exact hfield _ (by decide)

theorem read_reset (reg : Reg) : Regs.reset.read reg = 0 := by cases reg <;> rfl

theorem readIndex_reset (idx : Byte) : readIndex Regs.reset idx = 0 := by
  cases h : Reg.ofIndex idx with
  | none => exact readIndex_of_none h _
  | some reg => rw [readIndex_of_some h, read_reset]

/-- The register map of 10_state.md R21. -/
theorem readsEachField_all (r : Regs) : r.readsEachField := by
  have hfield : ∀ {n : Nat} (x : BitVec n), n ≤ 32 → (x.setWidth 32).toNat = x.toNat :=
    fun _ hn => BitVec.toNat_setWidth_of_le hn
  refine ⟨rfl, statusWord_toNat r.code r.fault, ?_⟩
  and_intros <;> exact hfield _ (by decide)

/-- Settles O7: every index has its register, and every register of the reset file reads 0. -/
theorem registerMapReadsEachField : Obligations.RegisterMapReadsEachField := by
  unfold Obligations.RegisterMapReadsEachField
  exact ⟨fun r => ⟨readsEachField_all r, fun _ h => readIndex_of_none (ofIndex_reserved h) r⟩, readIndex_reset⟩

/-- Settles O9: a check of the sixteen values of CODE and FAULT. -/
theorem statusWordLayout : Obligations.StatusWordLayout := by
  unfold Obligations.StatusWordLayout
  have hlayout : ∀ (code : BitVec 3) (fault : BitVec 1),
      (statusWord code fault).extractLsb' 0 3 = code ∧ (statusWord code fault).extractLsb' 8 1 = fault ∧
      (statusWord code fault).extractLsb' 3 5 = 0 ∧ (statusWord code fault).extractLsb' 9 23 = 0 := by decide
  exact ⟨fun r => hlayout r.code r.fault, readIndex_reset _⟩

/-! ### The access rules of 10_state.md R22 -/

theorem access_rwExecutes_iff (reg : Reg) : reg.access = .rwExecutes ↔ reg = .cmd := by
  cases reg <;> decide

theorem ofIndex_cmdIndex : Reg.ofIndex cmdIndex = some .cmd := rfl

/-- A register write at any index but CMD's is a store and no more. -/
theorem step_write {s : State} {idx : Byte} {v : Word} (h : nextAction s = some (.wr idx v)) (hne : idx ≠ cmdIndex) :
    step s = .next (afterWrite idx v s) := by
  rw [step_eq_perform h]
  exact if_neg hne

/-- A write to a read-only register or a reserved index stores nothing (10_state.md R22 (c), (d)). -/
theorem writeIndex_ignored {idx : Byte}
    (h : Reg.ofIndex idx = none ∨ ∃ reg, Reg.ofIndex idx = some reg ∧ reg.access = .ro) (r : Regs) (v : Word) :
    writeIndex r idx v = r := by
  rcases h with h | ⟨reg, h, hro⟩
  · exact writeIndex_of_none h r v
  · rw [writeIndex_of_some h, write_ro hro]

/-- A write to an RW register changes what no other index reads (10_state.md R22 (a)). -/
theorem readIndex_writeIndex_other {idx j : Byte} (h : j ≠ idx) (r : Regs) (v : Word) :
    readIndex (writeIndex r idx v) j = readIndex r j := by
  cases hi : Reg.ofIndex idx with
  | none => rw [writeIndex_of_none hi]
  | some reg =>
    cases hj : Reg.ofIndex j with
    | none => rw [readIndex_of_none hj, readIndex_of_none hj]
    | some other =>
      have hne : other ≠ reg := by
        rintro rfl
        exact h ((ofIndex_eq_some_iff.1 hj).symm.trans (ofIndex_eq_some_iff.1 hi))
      rw [writeIndex_of_some hi, readIndex_of_some hj, readIndex_of_some hj, read_write_other hne]

/-- Settles O8: the rules of a store and of a read, and that CMD alone is no plain store. -/
theorem registerAccessRules : Obligations.RegisterAccessRules := by
  unfold Obligations.RegisterAccessRules
  have hstatus : ∀ (code : BitVec 3) (fault : BitVec 1), statusWord code fault &&& 0xFFFFFEF8 = 0 := by decide
  refine ⟨fun s idx v reg hact hreg hrw => ?_, fun r => ⟨readsEachField_all r, hstatus r.code r.fault⟩, read_lt,
    fun s idx v hact hro => ?_, fun r idx h => ⟨ofIndex_reserved h, readIndex_of_none (ofIndex_reserved h) r⟩,
    fun s idx hact => ⟨_, step_eq_perform hact, rfl, rfl, rfl⟩, fun idx => ?_⟩
  · have hne : idx ≠ cmdIndex := by
      rintro rfl
      cases ofIndex_cmdIndex.symm.trans hreg
      cases hrw
    refine ⟨_, step_write hact hne, ?_, fun j hj => readIndex_writeIndex_other hj s.regs v, rfl, rfl⟩
    rw [afterWrite_regs, readIndex_of_some hreg, writeIndex_of_some hreg, read_write_same hrw]
  · have hne : idx ≠ cmdIndex := by
      rintro rfl
      rcases hro with h | ⟨reg, h, hro⟩
      · cases h
      · cases h; cases hro
    exact ⟨_, step_write hact hne, writeIndex_ignored hro s.regs v, rfl, rfl⟩
  · simp only [access_rwExecutes_iff, exists_eq_right, ofIndex_eq_some_iff]
    exact eq_comm

end Sys2Proof.Machine

/-! ## Proofs: running a command, FAULT, the host's index and the segment the host reads (10_state.md R23 to R35) -/

namespace Sys2Proof.Machine

/-! ### A CMD write as a step -/

theorem step_command {s : State} {w : Word} (h : nextAction s = some (.wr cmdIndex w)) :
    step s = performCommand w (afterWrite cmdIndex w s) := step_eq_perform h

theorem performCommand_of_instr {w : Word} {i : Instr} (h : decode w = .instr i) (s : State) :
    performCommand w s = exec i s := by simp only [performCommand, h]

theorem decode_encode (i : Instr) : decode (encode i) = .instr i := by cases i <;> decide

/-- Loading a command word for the next step is loading the program that writes it to CMD (20_memory.md R62). -/
theorem withFetchWord_toNat (s : State) (w : Word) : s.withFetchWord 32 w.toNat = loadProgram [.wr cmdIndex w] s := by
  rw [State.withFetchWord, Nat.mod_eq_of_lt w.isLt, BitVec.ofNat_toNat, BitVec.setWidth_eq]

/-- What no command writes: CMD, and the host's program and index. -/
theorem commandEffect_keeps_host {i : Instr} {s t : State} (he : CommandEffect i s t) :
    t.regs.cmd = s.regs.cmd ∧ t.program = s.program ∧ t.hostIndex = s.hostIndex := by
  cases he with
  | failed o _ ht => subst ht; exact ⟨rfl, rfl, rfl⟩
  | derived _ _ ht => subst ht; exact ⟨rfl, rfl, rfl⟩
  | tested b _ ht => subst ht; exact ⟨rfl, rfl, rfl⟩
  | built code content _ _ ht => subst ht; exact ⟨rfl, rfl, rfl⟩

theorem performCommand_keeps_host {w : Word} {s t : State} (h : performCommand w s = .next t) :
    t.regs.cmd = s.regs.cmd ∧ t.program = s.program ∧ t.hostIndex = s.hostIndex := by
  rcases performCommand_cases h with ⟨i, -, he⟩ | ⟨e, -, ht⟩
  · exact commandEffect_keeps_host he
  · subst ht; exact ⟨rfl, rfl, rfl⟩

/-- Settles O1: a CMD write is stored and then performed. -/
theorem stepRunsDecodedCommand : Obligations.StepRunsDecodedCommand := by
  unfold Obligations.StepRunsDecodedCommand
  intro s w i hact hdec
  rw [step_command hact, performCommand_of_instr hdec, afterWrite_cmdIndex]

/-- Settles O2, by O1 on the loaded program. -/
theorem placedCommandRunsNext : Obligations.PlacedCommandRunsNext := by
  unfold Obligations.PlacedCommandRunsNext
  intro s i
  rw [withFetchWord_toNat]
  have hstep := stepRunsDecodedCommand (loadProgram [.wr cmdIndex (encode i)] s) (encode i) i rfl (decode_encode i)
  obtain ⟨t, ht, he⟩ := exec_effect i { s with
    regs := { s.regs with cmd := encode i }
    program := [.wr cmdIndex (encode i)]
    hostIndex := 1
    drawEpoch := s.drawEpoch + 1 }
  obtain ⟨hcmd, -, -⟩ := commandEffect_keeps_host he
  exact ⟨t, hstep.trans ht, hcmd, hstep⟩

/-! ### STATUS after a command -/

/-- A command records one outcome in STATUS, whatever it does besides (10_state.md R25, R26). -/
theorem commandEffect_status {i : Instr} {s t : State} (he : CommandEffect i s t) :
    ∃ o : CommandOutcome, t.regs.code = o.code ∧ t.regs.fault = faultAfter o s.regs.fault := by
  cases he with
  | failed o _ ht => subst ht; exact ⟨o, rfl, rfl⟩
  | derived _ _ ht => subst ht; exact ⟨.ok, rfl, rfl⟩
  | tested b _ ht => subst ht; exact ⟨.ok, rfl, rfl⟩
  | built code content _ _ ht => subst ht; exact ⟨.ok, rfl, rfl⟩

theorem performCommand_status {w : Word} {s t : State} (h : performCommand w s = .next t) :
    ∃ o : CommandOutcome, t.regs.code = o.code ∧ t.regs.fault = faultAfter o s.regs.fault := by
  rcases performCommand_cases h with ⟨i, -, he⟩ | ⟨e, -, ht⟩
  · exact commandEffect_status he
  · subst ht; exact ⟨.illegalCommand, rfl, rfl⟩

/-- Only a reset clears FAULT (10_state.md R26). -/
theorem step_keeps_fault {s t : State} (h : step s = .next t) (hf : s.regs.fault = 1)
    (hne : nextAction s ≠ some .reset) : t.regs.fault = 1 := by
  cases step_cases h with
  | idle _ ht => exact ht ▸ hf
  | command w _ ht =>
    obtain ⟨o, -, hfault⟩ := performCommand_status ht
    rw [hfault, afterWrite_regs, writeIndex_fault, hf, faultAfter_one]
  | write idx v _ _ ht => rw [ht, afterWrite_regs, writeIndex_fault, hf]
  | read idx _ ht => exact ht ▸ hf
  | readByte k _ _ ht => exact ht ▸ hf
  | writeThumb a b _ ht => rw [ht, newEpoch_regs, advanceHost_regs, storeThumb_regs, hf]
  | skip idx k _ ht => exact ht ▸ hf
  | reset ha _ => exact absurd ha hne

/-- Settles O10: the outcome a command records says what becomes of FAULT, and no other step but a reset writes it. -/
theorem faultIsSticky : Obligations.FaultIsSticky := by
  unfold Obligations.FaultIsSticky
  refine ⟨fun s t w hact hstep => ?_, fun s t hstep hf hne => step_keeps_fault hstep hf hne,
    fun s hact => ⟨_, step_eq_perform hact, rfl⟩, fun s hf => ?_⟩
  · rw [step_command hact] at hstep
    obtain ⟨o, hcode, hfault⟩ := performCommand_status hstep
    rw [hcode, hfault]
    refine ⟨fun h => faultAfter_of_two_le_code ?_ _, fun h => faultAfter_of_code_lt_two ?_ _⟩ <;>
      rcases h with h | h <;> rw [h] <;> decide
  · rw [State.successful, hf]
    rfl

/-! ### The host's index -/

/-- Settles O46, by the cases of a step. -/
theorem hostIndexAdvances : Obligations.HostIndexAdvances := by
  unfold Obligations.HostIndexAdvances
  intro s t a hact hstep
  cases step_cases hstep with
  | idle ha _ => cases ha.symm.trans hact
  | command w ha ht =>
    cases ha.symm.trans hact
    obtain ⟨-, hprog, hidx⟩ := performCommand_keeps_host ht
    exact ⟨hprog, hidx⟩
  | write idx v _ ha ht => cases ha.symm.trans hact; subst ht; exact ⟨rfl, rfl⟩
  | read idx ha ht => cases ha.symm.trans hact; subst ht; exact ⟨rfl, rfl⟩
  | readByte k _ ha ht => cases ha.symm.trans hact; subst ht; exact ⟨rfl, rfl⟩
  | writeThumb a b ha ht => cases ha.symm.trans hact; subst ht; simp
  | skip idx k ha ht => cases ha.symm.trans hact; subst ht; exact ⟨rfl, rfl⟩
  | reset ha ht => cases ha.symm.trans hact; subst ht; exact ⟨rfl, rfl⟩

/-! ### The segment the host reads -/

/-- A content byte SEG_BUF holds is what the host reads, whichever the draw epoch (10_state.md R34). -/
theorem segByte_of_held {s : State} {k : Nat} {b : Byte} (hk : k < s.regs.segLen.toNat)
    (hb : s.segBuf.get? k = some b) : segByte s k = b := by
  rw [segByte, if_pos hk, hb, Option.getD_some]

/-- Where every content byte is held, the segment is a matter of SEG_LEN and SEG_BUF alone. -/
theorem segment_congr {s t : State} (h : s.Inv) (hl : t.regs.segLen = s.regs.segLen) (hb : t.segBuf = s.segBuf) :
    t.segment = s.segment := by
  rw [State.segment, State.segment, hl]
  refine List.map_congr_left fun k hk => ?_
  have hk := List.mem_range.1 hk
  obtain ⟨b, hget⟩ := Option.isSome_iff_exists.1 (h.contentHeld k hk)
  rw [segByte_of_held hk hget, segByte_of_held (hl ▸ hk) (hb ▸ hget)]

/-- Every step but a CMD write and a reset keeps SEG_LEN and SEG_BUF. -/
theorem step_keeps_segBuf {s t : State} (h : step s = .next t) (hr : nextAction s ≠ some .reset)
    (hc : ∀ w, nextAction s ≠ some (.wr cmdIndex w)) : t.regs.segLen = s.regs.segLen ∧ t.segBuf = s.segBuf := by
  cases step_cases h with
  | idle _ ht => subst ht; exact ⟨rfl, rfl⟩
  | command w ha _ => exact absurd ha (hc w)
  | write idx v _ _ ht => subst ht; exact ⟨writeIndex_segLen _ _ _, rfl⟩
  | read idx _ ht => subst ht; exact ⟨rfl, rfl⟩
  | readByte k _ _ ht => subst ht; exact ⟨rfl, rfl⟩
  | writeThumb a b _ ht => subst ht; simp
  | skip idx k _ ht => subst ht; exact ⟨rfl, rfl⟩
  | reset ha _ => exact absurd ha hr

/-- Settles O44: the content bytes are held, so a new draw epoch changes none of them. -/
theorem segmentSurvivesHostAccesses : Obligations.SegmentSurvivesHostAccesses := by
  unfold Obligations.SegmentSurvivesHostAccesses
  intro s t h hstep hr hc
  obtain ⟨hl, hb⟩ := step_keeps_segBuf hstep hr hc
  exact ⟨hl, segment_congr h hl hb⟩

end Sys2Proof.Machine

/-! ## Proofs: a command as an outcome and what it writes on success (10_state.md R20, R23, R31 to R33) -/

namespace Sys2Proof.Machine

/-! ### The outcome of a command and its writes, as functions of the state -/

/-- The outcome the thumbnail check leads to (41_segments.md R136). -/
def ThumbCheck.outcome : ThumbCheck → CommandOutcome
  | .copy _ => .ok
  | .raises o => o

/-- The outcome of a command that only checks a precondition (60_exceptions.md R162). -/
def guardOutcome (violates : Bool) : CommandOutcome := if violates then .contractViolation else .ok

/-- The outcome of a command, tied to `exec` by `exec_eq_next`: what its precondition and its thumbnail check say. -/
def commandOutcome (i : Instr) (s : State) : CommandOutcome :=
  match i with
  | .pcDefault => guardOutcome (pcDefaultViolates s)
  | .pcIsDefault => .ok
  | .pcIsValid => .ok
  | .segSof => guardOutcome (sofViolates s.regs)
  | .segJfif =>
    if jfifViolates s.regs then .contractViolation
    else (thumbLen s.config.thumbPolicy s.regs.jXthumb.toNat s.regs.jYthumb.toNat (thumbSupplied s.regs)).outcome
  | .segLse => .ok
  | .segApp8 => .ok
  | .segSos => guardOutcome (sosViolates s.regs)

/-- What a command that succeeds writes beside STATUS (`exec_eq_next`). -/
def commandWrites (i : Instr) (s : State) : State :=
  match i with
  | .pcDefault => storeDefaults (defaultPc (msvOperand s.regs) (nearOperand s.regs)) s
  | .pcIsDefault => setResult (isDefault (candidate s.regs)) s
  | .pcIsValid => setResult (isValid (candidate s.regs) (mcvOperand s.regs) (nearOperand s.regs)) s
  | i => emit (markerCode s.config i) (builtContent i s) s

/-- The state a command ends in (`exec_eq_next`). -/
def commandResult (i : Instr) (s : State) : State :=
  finish (commandOutcome i s) (if commandOutcome i s = .ok then commandWrites i s else s)

/-- A command that checks one precondition first. -/
theorem guarded_eq_next (violates : Bool) (s t : State) :
    (if violates then raise .contractViolation s else done t) =
      .next (finish (guardOutcome violates) (if guardOutcome violates = .ok then t else s)) := by
  cases violates <;> rfl

/-- SEG_JFIF, whose thumbnail check follows its precondition (41_segments.md R134). -/
theorem execSegJfif_eq_next (s : State) : execSegJfif s = .next (commandResult .segJfif s) := by
  unfold execSegJfif commandResult commandOutcome
  by_cases h : jfifViolates s.regs = true
  · rw [if_pos h, if_pos h]
    rfl
  · rw [if_neg h, if_neg h]
    cases hc : thumbLen s.config.thumbPolicy s.regs.jXthumb.toNat s.regs.jYthumb.toNat (thumbSupplied s.regs) with
    | raises o => rcases thumbLen_raises hc with rfl | rfl <;> rfl
    | copy k =>
      rw [thumbLen_copy_length hc]
      rfl

/-- Every command ends in its outcome, with its writes when that is OK. -/
theorem exec_eq_next (i : Instr) (s : State) : exec i s = .next (commandResult i s) := by
  cases i with
  | pcDefault => exact guarded_eq_next (pcDefaultViolates s) s _
  | pcIsDefault => rfl
  | pcIsValid => rfl
  | segSof => exact guarded_eq_next (sofViolates s.regs) s _
  | segJfif => exact execSegJfif_eq_next s
  | segLse => rfl
  | segApp8 => rfl
  | segSos => exact guarded_eq_next (sosViolates s.regs) s _

theorem commandResult_of_ok {i : Instr} {s : State} (h : commandOutcome i s = .ok) :
    commandResult i s = finish .ok (commandWrites i s) := by
  rw [commandResult, h, if_pos rfl]

theorem commandResult_of_failed {i : Instr} {s : State} (h : commandOutcome i s ≠ .ok) :
    commandResult i s = finish (commandOutcome i s) s := by
  rw [commandResult, if_neg h]

theorem commandResult_code (i : Instr) (s : State) : (commandResult i s).regs.code = (commandOutcome i s).code := rfl

theorem outcomeCode_eq_zero_iff (o : CommandOutcome) : o.code = 0 ↔ o = .ok := by cases o <;> decide

/-! ### RESULT (10_state.md R32) -/

/-- The state with another value in RESULT. -/
def withResult (b : BitVec 1) (s : State) : State := { s with regs := { s.regs with result := b } }

/-- No command reads RESULT: with another value there it has the same outcome, and ends in the same state but for
RESULT itself. -/
theorem commandResult_withResult (i : Instr) (s : State) (b : BitVec 1) :
    withResult (commandResult i s).regs.result (commandResult i (withResult b s)) = commandResult i s := by
  have ho : commandOutcome i (withResult b s) = commandOutcome i s := by cases i <;> rfl
  by_cases h : commandOutcome i s = .ok
  · rw [commandResult_of_ok h, commandResult_of_ok (ho.trans h)]
    cases i <;> rfl
  · rw [commandResult_of_failed h, commandResult_of_failed (ho ▸ h), ho]
    rfl

/-- Only the two tests write RESULT. -/
theorem commandEffect_keeps_result {i : Instr} {s t : State} (he : CommandEffect i s t) (hd : i ≠ .pcIsDefault)
    (hv : i ≠ .pcIsValid) : t.regs.result = s.regs.result := by
  cases he with
  | failed o _ ht => subst ht; rfl
  | derived _ _ ht => subst ht; rfl
  | tested b hi _ =>
    rcases hi with ⟨hi, -⟩ | ⟨hi, -⟩
    · exact absurd hi hd
    · exact absurd hi hv
  | built code content _ _ ht => subst ht; rfl

/-- Settles O36: the tests answer a bit, the other commands keep RESULT, and the value there before makes no
difference. -/
theorem onlyTheTestsWriteResult : Obligations.OnlyTheTestsWriteResult := by
  unfold Obligations.OnlyTheTestsWriteResult
  refine ⟨fun i s t h => ⟨?_, ?_, commandEffect_keeps_result (exec_cases h)⟩, fun i s t b h => ?_, rfl⟩
  · rintro rfl
    cases h
    exact ⟨rfl, boolBit_eq_one _⟩
  · rintro rfl
    cases h
    exact ⟨rfl, boolBit_eq_one _⟩
  · cases (exec_eq_next i s).symm.trans h
    exact ⟨_, exec_eq_next i (withResult b s), commandResult_withResult i s b⟩

/-! ### O_* (10_state.md R31) -/

/-- Only a PC_DEFAULT that succeeds writes O_*. -/
theorem commandEffect_keeps_derived {i : Instr} {s t : State} (he : CommandEffect i s t)
    (h : i ≠ .pcDefault ∨ t.regs.code ≠ 0) :
    t.regs.oMaxval = s.regs.oMaxval ∧ t.regs.oT1 = s.regs.oT1 ∧ t.regs.oT2 = s.regs.oT2 ∧ t.regs.oT3 = s.regs.oT3 ∧
      t.regs.oReset = s.regs.oReset := by
  cases he with
  | failed o _ ht => subst ht; exact ⟨rfl, rfl, rfl, rfl, rfl⟩
  | derived hi _ ht =>
    subst ht
    rcases h with h | h
    · exact absurd hi h
    · exact absurd rfl h
  | tested b _ ht => subst ht; exact ⟨rfl, rfl, rfl, rfl, rfl⟩
  | built code content _ _ ht => subst ht; exact ⟨rfl, rfl, rfl, rfl, rfl⟩

/-- Settles O35: the five fields of a derived set fit their registers, and no other effect of a command writes them. -/
theorem onlyPcDefaultWritesTheDerivedSet : Obligations.OnlyPcDefaultWritesTheDerivedSet := by
  unfold Obligations.OnlyPcDefaultWritesTheDerivedSet
  intro i s t h
  refine ⟨?_, commandEffect_keeps_derived (exec_cases h)⟩
  rintro rfl h0
  cases (exec_eq_next _ s).symm.trans h
  rw [commandResult_of_ok ((outcomeCode_eq_zero_iff _).1 h0)]
  have hm := s.regs.msv.isLt
  have hn := s.regs.near.isLt
  exact storeDefaults_toNat s (m := s.regs.msv.toNat) (n := s.regs.near.toNat) (by omega) (by omega)

/-! ### The segment registers (10_state.md R33) -/

/-- A command that builds no segment, or that fails, keeps SEG_CODE. -/
theorem commandEffect_keeps_segCode {i : Instr} {s t : State} (he : CommandEffect i s t)
    (h : buildsSegment i = false ∨ t.regs.code ≠ 0) : t.regs.segCode = s.regs.segCode := by
  cases he with
  | failed o _ ht => subst ht; rfl
  | derived _ _ ht => subst ht; rfl
  | tested b _ ht => subst ht; rfl
  | built code content hi _ ht =>
    subst ht
    rcases h with h | h
    · rcases hi with ⟨rfl, -⟩ | ⟨rfl, -⟩ | ⟨rfl, -⟩ | ⟨rfl, -⟩ | ⟨rfl, -⟩ <;> cases h
    · exact absurd rfl h

/-- Settles O37: a segment command that succeeds is one emit, and no other effect of a command writes SEG_*. -/
theorem segmentRegistersFollowTheLastSegment : Obligations.SegmentRegistersFollowTheLastSegment := by
  unfold Obligations.SegmentRegistersFollowTheLastSegment
  intro i s t h
  refine ⟨fun hb h0 => ?_, fun hkeep => ?_⟩
  · obtain ⟨hlen, rfl⟩ := exec_built h hb h0
    have hl := segLen_emit .ok (markerCode s.config i) (builtContent i s) s hlen
    refine ⟨rfl, hl, hl ▸ hlen, segment_emit .ok _ _ s hlen, fun k hk => ?_⟩
    rw [finish_segBuf, emit_segBuf, Memory.get?_store, if_pos (hl ▸ hk)]
  · obtain ⟨hl, hbuf, -⟩ := commandEffect_keeps_segment (exec_cases h) hkeep
    exact ⟨commandEffect_keeps_segCode (exec_cases h) hkeep, hl, hbuf⟩

/-! ### The same command twice (10_state.md R23) -/

/-- A command keeps its own operands and the parameters, so it has the same outcome again. -/
theorem commandOutcome_commandResult (i : Instr) (s : State) :
    commandOutcome i (commandResult i s) = commandOutcome i s := by
  by_cases h : commandOutcome i s = .ok
  · rw [commandResult_of_ok h]
    cases i <;> rfl
  · rw [commandResult_of_failed h]
    cases i <;> rfl

/-- The writes of a command, done twice, are its writes: the same set, the same answer, the same segment. -/
theorem commandWrites_twice (i : Instr) (s : State) :
    finish .ok (commandWrites i (finish .ok (commandWrites i s))) = finish .ok (commandWrites i s) := by
  cases i with
  | pcDefault => rfl
  | pcIsDefault => rfl
  | pcIsValid => rfl
  | segSof => exact finish_emit_finish_emit .ok s.config.mcSof (sofContent s.regs) s
  | segJfif => exact finish_emit_finish_emit .ok s.config.mcApp0 (jfifContent s.regs s.thumb s.regs.thumbLength) s
  | segLse => exact finish_emit_finish_emit .ok s.config.mcLse (lseContent s.regs) s
  | segApp8 => exact finish_emit_finish_emit .ok s.config.mcApp8 (app8Content s.regs) s
  | segSos => exact finish_emit_finish_emit .ok s.config.mcSos (sosContent s.regs) s

theorem commandResult_twice (i : Instr) (s : State) : commandResult i (commandResult i s) = commandResult i s := by
  have ho := commandOutcome_commandResult i s
  by_cases h : commandOutcome i s = .ok
  · rw [commandResult_of_ok (ho.trans h), commandResult_of_ok h, commandWrites_twice]
  · rw [commandResult_of_failed (ho ▸ h), ho, commandResult_of_failed h, finish_finish]

/-- Settles O40: no command writes CMD, and a command done twice is done once. -/
theorem commandsAreIdempotent : Obligations.CommandsAreIdempotent := by
  unfold Obligations.CommandsAreIdempotent
  refine ⟨fun s w hact => ?_, fun i s t h => ?_⟩
  · obtain ⟨t, ht⟩ := performCommand_next w (afterWrite cmdIndex w s)
    obtain ⟨hcmd, -, -⟩ := performCommand_keeps_host ht
    exact ⟨t, (step_command hact).trans ht, hcmd⟩
  · cases (exec_eq_next i s).symm.trans h
    rw [exec_eq_next, commandResult_twice]

/-! ### What a command depends on (10_state.md R20, 30_encoding.md R74) -/

theorem candidate_inj {r q : Regs} (h : candidate r = candidate q) :
    r.pMaxval = q.pMaxval ∧ r.pT1 = q.pT1 ∧ r.pT2 = q.pT2 ∧ r.pT3 = q.pT3 ∧ r.pReset = q.pReset := by
  simpa only [candidate, PresetParams.mk.injEq, BitVec.toNat_inj] using h

/-- The thumbnail of a SEG_JFIF lies inside THUMB (41_segments.md R135). -/
theorem thumbLength_le (r : Regs) : r.thumbLength ≤ thumbCap := by
  have hw := r.jXthumb.isLt
  have hh := r.jYthumb.isLt
  unfold Regs.thumbLength
  split
  · exact Nat.zero_le _
  · calc 3 * r.jXthumb.toNat * r.jYthumb.toNat ≤ 3 * 255 * 255 :=
          Nat.mul_le_mul (Nat.mul_le_mul_left 3 (by omega)) (by omega)
      _ = thumbCap := rfl

theorem thumbBytes_congr {m m' : Memory} {t : Nat} (ht : t ≤ thumbCap)
    (h : ∀ a, a < thumbCap → thumbByte m a = thumbByte m' a) : thumbBytes m t = thumbBytes m' t :=
  List.map_congr_left fun a ha => h a (Nat.lt_of_lt_of_le (List.mem_range.1 ha) ht)

/-- The outcome of a command depends on its operands and the parameters. -/
theorem commandOutcome_congr {i : Instr} {s u : State} (h : operandsAgree i s.regs u.regs)
    (hc : s.config = u.config) : commandOutcome i s = commandOutcome i u := by
  cases i with
  | pcDefault =>
    obtain ⟨hm, hn⟩ := h
    simp only [commandOutcome, pcDefaultViolates, msvOperand, nearOperand, hm, hn, hc]
  | pcIsDefault => rfl
  | pcIsValid => rfl
  | segSof =>
    obtain ⟨-, -, hbps, hnf⟩ := h
    simp only [commandOutcome, sofViolates, hbps, hnf]
  | segJfif =>
    obtain ⟨-, hu, hxd, hyd, hx, hy, ht⟩ := h
    have hviolates : jfifViolates s.regs = jfifViolates u.regs := by simp only [jfifViolates, hu, hxd, hyd]
    have hsupplied : thumbSupplied s.regs = thumbSupplied u.regs := by simp only [thumbSupplied, ht]
    rw [commandOutcome, commandOutcome, hviolates, hsupplied, hx, hy, hc]
  | segLse => rfl
  | segApp8 => rfl
  | segSos =>
    obtain ⟨hidx, -, -, -⟩ := h
    simp only [commandOutcome, sosViolates, scanIndex, hidx]

/-- The content of a SEG_SOS does not depend on S_NS in the single-component form (41_segments.md R139). -/
theorem sosContent_congr {r q : Regs} (h : operandsAgree .segSos r q) : sosContent r = sosContent q := by
  obtain ⟨hidx, hnear, hilv, hns⟩ := h
  simp only [sosContent_eq, sosComponents_eq, scanIndex, hidx, hnear, hilv]
  by_cases hneg : q.sCidx.toInt < 0
  · rw [hns (hidx ▸ hneg)]
  · rw [if_neg hneg, if_neg hneg]

/-- The content a segment command builds depends on its operands and, for SEG_JFIF, on THUMB. -/
theorem builtContent_congr {i : Instr} {s u : State} (h : operandsAgree i s.regs u.regs)
    (hthumb : i = .segJfif → ∀ a, a < thumbCap → thumbByte s.thumb a = thumbByte u.thumb a) :
    builtContent i s = builtContent i u := by
  cases i with
  | pcDefault => rfl
  | pcIsDefault => rfl
  | pcIsValid => rfl
  | segSof =>
    obtain ⟨hw, hh, hbps, hnf⟩ := h
    simp only [builtContent, sofContent, hw, hh, hbps, hnf]
  | segJfif =>
    obtain ⟨hv, hu, hxd, hyd, hx, hy, -⟩ := h
    have hlen : s.regs.thumbLength = u.regs.thumbLength := by simp only [Regs.thumbLength, hx, hy]
    have hbytes : thumbBytes s.thumb u.regs.thumbLength = thumbBytes u.thumb u.regs.thumbLength :=
      thumbBytes_congr (thumbLength_le u.regs) (hthumb rfl)
    simp only [builtContent, jfifContent_eq, hbytes, hlen, hv, hu, hxd, hyd, hx, hy]
  | segLse =>
    obtain ⟨h0, h1, h2, h3, h4⟩ := candidate_inj h
    simp only [builtContent, lseContent, h0, h1, h2, h3, h4]
  | segApp8 =>
    have hx : s.regs.xform = u.regs.xform := h
    simp only [builtContent, app8Content, hx]
  | segSos => exact sosContent_congr h

/-- Two segment commands that succeed with the same code and content agree on their results. -/
theorem resultsAgree_of_emit {i : Instr} (hb : buildsSegment i = true) (code : Byte) {content : List Byte}
    (hlen : content.length ≤ segCap) (s u : State) :
    resultsAgree i (finish .ok (emit code content s)) (finish .ok (emit code content u)) := by
  have hbytes : ∀ k, k < (finish .ok (emit code content s)).regs.segLen.toNat →
      segByte (finish .ok (emit code content s)) k = segByte (finish .ok (emit code content u)) k := fun k hk => by
    rw [segLen_emit .ok code content s hlen] at hk
    rw [segByte_emit .ok code content s hlen hk, segByte_emit .ok code content u hlen hk]
  cases i <;> cases hb <;> exact ⟨rfl, rfl, hbytes⟩

/-- Two commands of the preset family on the same operands agree on the results they write. -/
theorem resultsAgree_commandWrites {i : Instr} (hb : buildsSegment i = false) {s u : State}
    (h : operandsAgree i s.regs u.regs) :
    resultsAgree i (finish .ok (commandWrites i s)) (finish .ok (commandWrites i u)) := by
  cases i with
  | pcDefault =>
    obtain ⟨hm, hn⟩ := h
    simp [resultsAgree, commandWrites, msvOperand, nearOperand, hm, hn]
  | pcIsDefault =>
    have hcand : candidate s.regs = candidate u.regs := h
    simp [resultsAgree, commandWrites, hcand]
  | pcIsValid =>
    obtain ⟨hcand, hmcv, hn⟩ := h
    simp [resultsAgree, commandWrites, mcvOperand, nearOperand, hcand, hmcv, hn]
  | segSof => cases hb
  | segJfif => cases hb
  | segLse => cases hb
  | segApp8 => cases hb
  | segSos => cases hb

/-- Settles O39: the outcome and the writes of a command are functions of its operands. -/
theorem commandsDependOnlyOnOperands : Obligations.CommandsDependOnlyOnOperands := by
  unfold Obligations.CommandsDependOnlyOnOperands
  intro i s u hops hconf hthumb
  have ho := commandOutcome_congr hops hconf
  refine ⟨_, _, exec_eq_next i s, exec_eq_next i u, congrArg CommandOutcome.code ho, fun h0 => ?_⟩
  cases hb : buildsSegment i with
  | true =>
    have h0' : (commandResult i u).regs.code = 0 := by rw [commandResult_code, ← ho]; exact h0
    obtain ⟨hlen, hs⟩ := exec_built (exec_eq_next i s) hb h0
    obtain ⟨-, hu⟩ := exec_built (exec_eq_next i u) hb h0'
    rw [hs, hu, ← builtContent_congr hops hthumb, ← hconf]
    exact resultsAgree_of_emit hb _ hlen s u
  | false =>
    have hok := (outcomeCode_eq_zero_iff _).1 h0
    rw [commandResult_of_ok hok, commandResult_of_ok (ho ▸ hok)]
    exact resultsAgree_commandWrites hb hops

end Sys2Proof.Machine

/-! ## Proofs: the host's accesses to SEG_BUF, the registers and THUMB (20_memory.md R50, R55, R57, R58) -/

namespace Sys2Proof.Machine

/-! ### A SEG_BUF read as a step (20_memory.md R58) -/

theorem step_readByte {s : State} {k : Nat} (h : nextAction s = some (.rdb k)) (hk : k < segCap) :
    step s = .next (advanceHost 1 (observe (.segByte k (segByte s k)) s)) :=
  (step_eq_perform h).trans (if_pos hk)

theorem step_readByte_refused {s : State} {k : Nat} (h : nextAction s = some (.rdb k)) (hk : segCap ≤ k) :
    step s = .refused (.segBufOffsetOutOfRange k) :=
  (step_eq_perform h).trans (if_neg (Nat.not_lt.2 hk))

/-- Settles O42: the invariant holds a byte at every offset below SEG_LEN and keeps SEG_LEN within SEG_CAP, so a content
read is one below SEG_CAP and returns the byte held. -/
theorem segBufReads : Obligations.SegBufReads := by
  unfold Obligations.SegBufReads
  refine ⟨fun s k hact hinv hk => ?_, fun s k hact _ hcap => ⟨segByte s k, step_readByte hact hcap⟩,
    fun s k hact hcap => step_readByte_refused hact hcap⟩
  obtain ⟨b, hb⟩ := Option.isSome_iff_exists.1 (hinv.contentHeld k hk)
  have hstep := step_readByte hact (Nat.lt_of_lt_of_le hk hinv.lenInside)
  rw [segByte_of_held hk hb] at hstep
  exact ⟨b, hb, hstep⟩

/-! ### A read leaves the block alone (20_memory.md R55) -/

/-- A host read that answers records what it returned and moves the host on, and does no more. -/
theorem step_of_read {s t : State} {a : HostAction} (hact : nextAction s = some a) (hstep : step s = .next t)
    (hread : (∃ idx, a = .rd idx) ∨ (∃ k, a = .rdb k) ∨ (∃ idx k, a = .skipz idx k)) :
    ∃ n o, t = advanceHost n (observe o s) := by
  rcases hread with ⟨idx, rfl⟩ | ⟨k, rfl⟩ | ⟨idx, k, rfl⟩
  · cases (step_eq_perform hact).symm.trans hstep
    exact ⟨_, _, rfl⟩
  · rcases Nat.lt_or_ge k segCap with hk | hk
    · cases (step_readByte hact hk).symm.trans hstep
      exact ⟨_, _, rfl⟩
    · cases (step_readByte_refused hact hk).symm.trans hstep
  · cases (step_eq_perform hact).symm.trans hstep
    exact ⟨_, _, rfl⟩

/-- Settles O43: the host's bookkeeping reaches neither the block nor the draw epoch. -/
theorem readsHaveNoSideEffect : Obligations.ReadsHaveNoSideEffect := by
  unfold Obligations.ReadsHaveNoSideEffect
  refine ⟨fun s idx hact => ?_, fun s t a hact hstep hread => ?_⟩
  · rcases hact with hact | ⟨k, hact⟩
    · exact ⟨_, step_eq_perform hact, rfl⟩
    · exact ⟨_, step_eq_perform hact, rfl⟩
  · obtain ⟨n, o, rfl⟩ := step_of_read hact hstep hread
    exact ⟨rfl, rfl, rfl, rfl, segByte_congr rfl rfl rfl⟩

/-! ### A THUMB write (20_memory.md R57) -/

/-- THUMB read back after a byte store: the stored byte at its offset, the old byte, free or written, elsewhere. -/
theorem thumbByte_write (m : Memory) (a : Nat) (b : Byte) (j : Nat) :
    thumbByte (m.write a b) j = if j = a then b else thumbByte m j := by
  rw [thumbByte, Memory.get?_write]
  rcases eq_or_ne j a with rfl | hj
  · rw [if_pos rfl, if_pos rfl, Option.getD_some]
  · rw [if_neg hj.symm, if_neg hj, thumbByte]

/-- Settles O45: the step is `storeThumb` and host bookkeeping, and `storeThumb` is one byte store inside the window and
nothing outside it. -/
theorem thumbWrites : Obligations.ThumbWrites := by
  unfold Obligations.ThumbWrites
  intro s a b hact
  refine ⟨newEpoch (advanceHost 1 (storeThumb a b s)), step_eq_perform hact, storeThumb_regs a b s,
    storeThumb_segBuf a b s, storeThumb_config a b s, fun ha j => ?_, fun ha => ?_⟩
  · rw [newEpoch_thumb, advanceHost_thumb, storeThumb_inside ha, thumbByte_write]
  · rw [newEpoch_thumb, advanceHost_thumb, storeThumb_outside ha]

end Sys2Proof.Machine

/-! ## Proofs: command words and host-action triples (30_encoding.md R70 to R73, R82) -/

namespace Sys2Proof.Machine

/-! ### The words that select a command -/

/-- A word selects a command exactly when it is that command's word (30_encoding.md R73). -/
theorem decode_eq_instr_iff_eq_encode (w : Word) (i : Instr) : decode w = .instr i ↔ w = encode i := by
  constructor
  · intro h
    obtain ⟨hr, ho⟩ := (decode_eq_instr w i).1 h
    obtain ⟨hr', ho'⟩ := (decode_eq_instr (encode i) i).1 (decode_encode i)
    exact word_ext_fields (hr.trans hr'.symm) (ho.trans ho'.symm)
  · rintro rfl
    exact decode_encode i

/-- The opcode map of 30_encoding.md R71 pairs each command with the number of its word. -/
theorem mem_opcodeMap_iff (n : Nat) (i : Instr) :
    (n, i) ∈ [(0x00000001, Instr.pcDefault), (0x00000002, .pcIsDefault), (0x00000003, .pcIsValid),
      (0x00000010, .segSof), (0x00000011, .segJfif), (0x00000012, .segLse), (0x00000013, .segApp8),
      (0x00000014, .segSos)] ↔ n = (encode i).toNat := by
  cases i <;> simp [encode, opcode]

/-- Settles O4: decoding is the inverse of encoding, and the opcode map lists the encodings. -/
theorem decodeEncodeAgree : Obligations.DecodeEncodeAgree := by
  unfold Obligations.DecodeEncodeAgree
  refine ⟨fun i _ => decode_encode i, fun w i => (decode_eq_instr_iff_eq_encode w i).1, fun w i => ?_⟩
  rw [mem_opcodeMap_iff, BitVec.toNat_inj, decode_eq_instr_iff_eq_encode]

/-- Settles O3: the eight words are the encodings of their commands; the two beside them are evaluated. -/
theorem commandWordsDecode : Obligations.CommandWordsDecode := by
  unfold Obligations.CommandWordsDecode
  exact ⟨decode_encode .pcDefault, decode_encode .pcIsDefault, decode_encode .pcIsValid, decode_encode .segSof,
    decode_encode .segJfif, decode_encode .segLse, decode_encode .segApp8, decode_encode .segSos, by decide, by decide⟩

/-! ### The words that select none (30_encoding.md R72, 60_exceptions.md R164) -/

/-- The OP values of 30_encoding.md R71 as numbers. -/
theorem mem_opcodes_iff (n : Nat) :
    n ∈ [0x01, 0x02, 0x03, 0x10, 0x11, 0x12, 0x13, 0x14] ↔ ∃ i : Instr, n = (opcode i).toNat := by
  constructor
  · simp only [List.mem_cons, List.not_mem_nil, or_false]
    rintro (rfl | rfl | rfl | rfl | rfl | rfl | rfl | rfl)
    exacts [⟨.pcDefault, rfl⟩, ⟨.pcIsDefault, rfl⟩, ⟨.pcIsValid, rfl⟩, ⟨.segSof, rfl⟩, ⟨.segJfif, rfl⟩,
      ⟨.segLse, rfl⟩, ⟨.segApp8, rfl⟩, ⟨.segSos, rfl⟩]
  · rintro ⟨i, rfl⟩
    cases i <;> decide

/-- A word selects a command exactly when its OP is one of the eight and its RSV is 0. -/
theorem exists_decode_eq_instr_iff (w : Word) : (∃ i, decode w = .instr i) ↔
    w.toNat % 256 ∈ [0x01, 0x02, 0x03, 0x10, 0x11, 0x12, 0x13, 0x14] ∧ w.toNat / 256 = 0 := by
  have hr : rsvField w = 0 ↔ w.toNat / 256 = 0 := by rw [← rsvField_toNat, BitVec.toNat_eq]; rfl
  have ho (i : Instr) : opField w = opcode i ↔ w.toNat % 256 = (opcode i).toNat := by
    rw [← opField_toNat, BitVec.toNat_inj]
  simp only [decode_eq_instr, mem_opcodes_iff, hr, ho, exists_and_left, and_comm]

/-- The command a word selects never ends in ILLEGAL_COMMAND. -/
theorem commandEffect_code_ne_three {i : Instr} {s t : State} (he : CommandEffect i s t) : t.regs.code ≠ 3 := by
  have hok : CommandOutcome.ok.code ≠ 3 := by decide
  cases he with
  | failed o ho ht =>
    have ho3 : o.code ≠ 3 := by rcases ho with rfl | rfl <;> decide
    exact ht ▸ ho3
  | derived _ _ ht => exact ht ▸ hok
  | tested b _ ht => exact ht ▸ hok
  | built code content _ _ ht => exact ht ▸ hok

/-- Settles O5: a word outside the opcode map decodes to no command, so the write of it is stored and raises
IllegalCommand; a word of the map runs its command. -/
theorem illegalCommandWords : Obligations.IllegalCommandWords := by
  unfold Obligations.IllegalCommandWords
  intro s w hact
  rw [step_command hact]
  refine ⟨fun hillegal => ?_, fun hop hrsv => ?_⟩
  · obtain ⟨t, ht⟩ := performCommand_next w (afterWrite cmdIndex w s)
    rcases performCommand_cases ht with ⟨i, hdec, -⟩ | ⟨e, -, hfin⟩
    · obtain ⟨hop, hrsv⟩ := (exists_decode_eq_instr_iff w).1 ⟨i, hdec⟩
      rcases hillegal with h | h
      · exact absurd hop h
      · exact absurd hrsv h
    · subst hfin
      exact ⟨_, ht, rfl, rfl, rfl⟩
  · obtain ⟨i, hdec⟩ := (exists_decode_eq_instr_iff w).2 ⟨hop, hrsv⟩
    obtain ⟨t, ht, he⟩ := exec_effect i (afterWrite cmdIndex w s)
    exact ⟨t, (performCommand_of_instr hdec _).trans ht, commandEffect_code_ne_three he⟩

/-! ### The triples of host actions (30_encoding.md R82) -/

/-- The triple of an action decodes to the action: its parts fit their ranges. -/
theorem decodeAction_encodeAction (a : HostAction) : decodeAction (encodeAction a) = some a := by
  cases a with
  | wr idx v => simp [decodeAction, encodeAction, idx.isLt, v.isLt]
  | rd idx => simp [decodeAction, encodeAction, idx.isLt]
  | rdb k => rfl
  | wrt a b => simp [decodeAction, encodeAction, b.isLt]
  | skipz idx k => simp [decodeAction, encodeAction, idx.isLt]
  | reset => rfl

/-- A number that fits a field is the value of the field. -/
theorem toNat_ofNat_of_lt {n k : Nat} (h : k < 2 ^ n) : (BitVec.ofNat n k).toNat = k := by
  rw [BitVec.toNat_ofNat, Nat.mod_eq_of_lt h]

/-- A triple that decodes is the triple of its action: each kind's guard bounds or fixes the other parts. -/
theorem encodeAction_of_decodeAction {t : ActionTriple} {a : HostAction} (h : decodeAction t = some a) :
    encodeAction a = t := by
  obtain ⟨kind, index, value⟩ := t
  cases kind <;> obtain ⟨hg, ha⟩ := Option.ite_none_right_eq_some.1 h <;> cases ha
  case wr =>
    obtain ⟨hidx, hval⟩ := hg
    simp only [encodeAction, toNat_ofNat_of_lt hidx, toNat_ofNat_of_lt hval]
  case rd =>
    obtain ⟨hidx, rfl : value = 0⟩ := hg
    simp only [encodeAction, toNat_ofNat_of_lt hidx]
  case rdb =>
    obtain rfl : value = 0 := hg
    rfl
  case wrt => simp only [encodeAction, toNat_ofNat_of_lt hg]
  case skipz => simp only [encodeAction, toNat_ofNat_of_lt hg]
  case reset =>
    obtain ⟨rfl : index = 0, rfl : value = 0⟩ := hg
    rfl

/-- Settles O6: encoding and decoding of triples are inverse to each other. -/
theorem hostActionTriplesRoundTrip : Obligations.HostActionTriplesRoundTrip := by
  unfold Obligations.HostActionTriplesRoundTrip
  exact ⟨decodeAction_encodeAction, fun _ _ => encodeAction_of_decodeAction⟩

end Sys2Proof.Machine

/-! ## Proofs: what each segment command builds, its length and its framing (30_encoding.md R76 to R83) -/

namespace Sys2Proof.Machine

/-! ### When a segment command succeeds -/

theorem guardOutcome_eq_ok_iff (violates : Bool) : guardOutcome violates = .ok ↔ violates = false := by
  cases violates <;> decide

/-- SEG_SOF succeeds exactly where its precondition holds (41_segments.md R133). -/
theorem commandOutcome_segSof_ok_iff (s : State) : commandOutcome .segSof s = .ok ↔
    s.regs.fBps.toNat ≠ 0 ∧ s.regs.fNf.toNat ≠ 0 ∧ s.regs.fNf.toNat ≤ 254 := by
  rw [commandOutcome, guardOutcome_eq_ok_iff, ← Bool.not_eq_true, sofViolates_iff, not_or, not_or, not_lt]

/-- SEG_SOS succeeds exactly where its precondition holds (41_segments.md R139). -/
theorem commandOutcome_segSos_ok_iff (s : State) : commandOutcome .segSos s = .ok ↔ s.regs.sCidx.toInt ≤ 255 := by
  rw [commandOutcome, guardOutcome_eq_ok_iff, ← Bool.not_eq_true, sosViolates_iff, not_lt]

/-- Once the precondition of SEG_JFIF holds, the thumbnail check decides (60_exceptions.md R165). -/
theorem commandOutcome_segJfif {s : State} (hu : s.regs.jUnits.toNat ≤ 2) (hx : s.regs.jXdens.toNat ≠ 0)
    (hy : s.regs.jYdens.toNat ≠ 0) : commandOutcome .segJfif s =
      (thumbLen s.config.thumbPolicy s.regs.jXthumb.toNat s.regs.jYthumb.toNat (thumbSupplied s.regs)).outcome := by
  refine if_neg fun h => ?_
  rcases (jfifViolates_iff s.regs).1 h with h | h | h
  · omega
  · exact hx h
  · exact hy h

/-- The thumbnail check allows a missing width, and under INTENT a supplied buffer (41_segments.md R136). -/
theorem thumbLen_outcome_ok {p : ThumbPolicy} {tw : Nat} {tp : Bool} (h : tw = 0 ∨ p = .intent ∧ tp = true) (th : Nat) :
    (thumbLen p tw th tp).outcome = .ok := by
  by_cases h0 : tw = 0
  · rw [h0, thumbLen_noWidth]
    rfl
  · obtain ⟨rfl, rfl⟩ := h.resolve_left h0
    rw [thumbLen_intent_supplied h0]
    rfl

/-- Elsewhere the thumbnail check raises one of the two errors (41_segments.md R136). -/
theorem thumbLen_outcome_failed {p : ThumbPolicy} {tw : Nat} {tp : Bool} (h0 : tw ≠ 0)
    (h : p = .asObserved ∨ tp = false) (th : Nat) :
    (thumbLen p tw th tp).outcome = .invalidParameters ∨ (thumbLen p tw th tp).outcome = .contractViolation := by
  cases hc : thumbLen p tw th tp with
  | raises o => exact thumbLen_raises hc
  | copy k =>
    rcases h with rfl | rfl
    · cases tp with
      | false => cases (thumbLen_observed_absent h0 th).symm.trans hc
      | true => cases (thumbLen_observed_supplied h0 th).symm.trans hc
    · cases p with
      | intent => cases (thumbLen_intent_absent h0 th).symm.trans hc
      | asObserved => cases (thumbLen_observed_absent h0 th).symm.trans hc

/-- SEG_JFIF fails where the thumbnail check does not allow the thumbnail, whatever its precondition says. -/
theorem commandOutcome_segJfif_refused {s : State} (h0 : s.regs.jXthumb.toNat ≠ 0)
    (h : s.config.thumbPolicy = .asObserved ∨ s.regs.jTpres = 0) :
    commandOutcome .segJfif s = .invalidParameters ∨ commandOutcome .segJfif s = .contractViolation := by
  rw [commandOutcome]
  split
  · exact .inr rfl
  · refine thumbLen_outcome_failed h0 (h.imp_right fun ht => ?_) _
    rw [thumbSupplied, ht]
    rfl

/-- A violated precondition writes only STATUS (60_exceptions.md R161). -/
theorem exec_of_contractViolation {i : Instr} {s : State} (h : commandOutcome i s = .contractViolation) :
    exec i s = .next { s with regs := { s.regs with code := 2, fault := 1 } } := by
  have hne : commandOutcome i s ≠ .ok := by
    rw [h]
    decide
  rw [exec_eq_next, commandResult_of_failed hne, h]
  rfl

/-! ### What a segment command that succeeds leaves -/

/-- SEG_LEN after a segment command that succeeds. -/
theorem segLen_of_built {i : Instr} {s t : State} (h : exec i s = .next t) (hb : buildsSegment i = true)
    (h0 : t.regs.code = 0) : t.regs.segLen.toNat = (builtContent i s).length := by
  obtain ⟨hlen, rfl⟩ := exec_built h hb h0
  exact segLen_emit .ok _ _ s hlen

/-- A segment command that succeeds writes SEG_CODE, SEG_LEN and CODE, and the host reads its content. -/
theorem exec_builds {i : Instr} {s : State} {n : Nat} (hb : buildsSegment i = true) (hok : commandOutcome i s = .ok)
    (hn : (builtContent i s).length = n) :
    ∃ t, exec i s = .next t ∧ t =
        { s with
          regs := { s.regs with segCode := markerCode s.config i, segLen := BitVec.ofNat 18 n, code := 0 }
          segBuf := t.segBuf } ∧
      t.regs.segLen.toNat = n ∧ ∀ {k : Nat} {b : Byte}, (builtContent i s)[k]? = some b → segByte t k = b := by
  have h0 : (commandResult i s).regs.code = 0 := by
    rw [commandResult_code, hok]
    rfl
  obtain ⟨hlen, ht⟩ := exec_built (exec_eq_next i s) hb h0
  refine ⟨_, exec_eq_next i s, ?_, (segLen_of_built (exec_eq_next i s) hb h0).trans hn, ?_⟩
  · rw [ht, ← hn]
    rfl
  · rw [ht]
    exact segByte_emit_of_getElem? .ok _ s hlen

theorem toNat_of_eq_hi8 {b : Byte} {v : Half} (h : b = hi8 v) : b.toNat = v.toNat / 256 := h ▸ hi8_toNat v

theorem toNat_of_eq_lo8 {b : Byte} {v : Half} (h : b = lo8 v) : b.toNat = v.toNat % 256 := h ▸ lo8_toNat v

/-! ### SEG_SOF (30_encoding.md R76) -/

/-- The triplet of the component with id i + 1 stands after the six header bytes. -/
theorem sofContent_triplet {r : Regs} {i j : Nat} (hi : i < r.fNf.toNat) (hj : j < 3) :
    (sofContent r)[6 + 3 * i + j]? = [BitVec.ofNat 8 (i + 1), (0x11 : Byte), 0x00][j]? := by
  rw [sofContent_eq, Nat.add_assoc, List.getElem?_append_right (Nat.le_add_right 6 _),
    ← sofTriplets_getElem? hi hj]
  exact congrArg _ (Nat.add_sub_cancel_left 6 _)

/-- Settles O28: outside the precondition the command raises, inside it the content is read byte by byte. -/
theorem segSofBuildsFrameHeader : Obligations.SegSofBuildsFrameHeader := by
  unfold Obligations.SegSofBuildsFrameHeader
  refine ⟨decode_encode .segSof, fun s h => exec_of_contractViolation ?_, fun s hbps hnf hmax => ?_⟩
  · rw [commandOutcome, (sofViolates_iff s.regs).2 h]
    rfl
  · obtain ⟨t, hexec, hframe, -, hread⟩ :=
      exec_builds (i := .segSof) rfl ((commandOutcome_segSof_ok_iff s).2 ⟨hbps, hnf, hmax⟩) (sofContent_length s.regs)
    have htriplet {i j : Nat} {b : Byte} (hi : i < s.regs.fNf.toNat) (hj : j < 3)
        (hb : [BitVec.ofNat 8 (i + 1), (0x11 : Byte), 0x00][j]? = some b) : segByte t (6 + 3 * i + j) = b :=
      hread ((sofContent_triplet hi hj).trans hb)
    simp only [builtContent, sofContent_eq] at hread
    refine ⟨t, hexec, hframe, hread rfl, toNat_of_eq_hi8 (hread rfl), toNat_of_eq_lo8 (hread rfl),
      toNat_of_eq_hi8 (hread rfl), toNat_of_eq_lo8 (hread rfl), hread rfl, fun i h1 hi => ?_⟩
    obtain ⟨i, rfl⟩ := Nat.exists_eq_add_of_le' h1
    rw [Nat.add_sub_cancel, show 7 + 3 * i = 6 + 3 * i + 1 by omega, show 8 + 3 * i = 6 + 3 * i + 2 by omega]
    refine ⟨?_, htriplet hi (by decide) rfl, htriplet hi (by decide) rfl⟩
    rw [show segByte t (6 + 3 * i) = BitVec.ofNat 8 (i + 1) from htriplet hi (Nat.zero_lt_succ 2) rfl]
    exact toNat_ofNat_of_lt (by omega)

/-! ### SEG_JFIF (30_encoding.md R77) -/

/-- The thumbnail bytes stand after the fourteen header bytes. -/
theorem jfifContent_thumb (r : Regs) (m : Memory) {t a : Nat} (ha : a < t) :
    (jfifContent r m t)[14 + a]? = some (thumbByte m a) := by
  rw [jfifContent_eq, List.getElem?_append_right (Nat.le_add_right 14 a), ← thumbBytes_getElem? m ha]
  exact congrArg _ (Nat.add_sub_cancel_left 14 a)

/-- Settles O29: the precondition raises first; then a thumbnail the check allows is copied after the header, and one it
does not allow raises. -/
theorem segJfifBuildsApp0 : Obligations.SegJfifBuildsApp0 := by
  unfold Obligations.SegJfifBuildsApp0
  refine ⟨decode_encode .segJfif, fun s h => exec_of_contractViolation (if_pos ((jfifViolates_iff s.regs).2 h)),
    fun s hu hx hy hthumb => ?_, fun s hw h => ⟨_, exec_eq_next .segJfif s, ?_⟩⟩
  · have hsupplied : s.regs.jXthumb.toNat = 0 ∨ s.config.thumbPolicy = .intent ∧ thumbSupplied s.regs = true :=
      hthumb.imp_right fun ⟨hp, htp⟩ => ⟨hp, by rw [thumbSupplied, htp]; rfl⟩
    have hok := (commandOutcome_segJfif hu hx hy).trans (thumbLen_outcome_ok hsupplied s.regs.jYthumb.toNat)
    obtain ⟨t, hexec, hframe, hlen, hread⟩ :=
      exec_builds rfl hok (jfifContent_length s.regs s.thumb s.regs.thumbLength)
    have hcopied (a : Nat) (ha : a < s.regs.thumbLength) : segByte t (14 + a) = thumbByte s.thumb a :=
      hread (jfifContent_thumb s.regs s.thumb ha)
    simp only [builtContent, jfifContent_eq] at hread
    exact ⟨t, hexec, hframe, hlen, hread rfl, hread rfl, hread rfl, hread rfl, hread rfl,
      toNat_of_eq_hi8 (hread rfl), toNat_of_eq_lo8 (hread rfl), hread rfl,
      toNat_of_eq_hi8 (hread rfl), toNat_of_eq_lo8 (hread rfl), toNat_of_eq_hi8 (hread rfl),
      toNat_of_eq_lo8 (hread rfl), hread rfl, hread rfl, hcopied⟩
  · rw [commandResult_code]
    exact (commandOutcome_segJfif_refused (Nat.pos_iff_ne_zero.1 hw) h).imp (congrArg _) (congrArg _)

/-! ### SEG_LSE and SEG_APP8 (30_encoding.md R78, R79) -/

/-- Settles O31: SEG_LSE has no precondition, and its content is eleven bytes. -/
theorem segLseBuildsPresetParameters : Obligations.SegLseBuildsPresetParameters := by
  unfold Obligations.SegLseBuildsPresetParameters
  refine ⟨decode_encode .segLse, fun s => ?_⟩
  obtain ⟨t, hexec, hframe, -, hread⟩ := exec_builds (i := .segLse) rfl rfl (lseContent_length s.regs)
  simp only [builtContent, lseContent_eq] at hread
  exact ⟨t, hexec, hframe, hread rfl, toNat_of_eq_hi8 (hread rfl), toNat_of_eq_lo8 (hread rfl),
    toNat_of_eq_hi8 (hread rfl), toNat_of_eq_lo8 (hread rfl), toNat_of_eq_hi8 (hread rfl),
    toNat_of_eq_lo8 (hread rfl), toNat_of_eq_hi8 (hread rfl), toNat_of_eq_lo8 (hread rfl),
    toNat_of_eq_hi8 (hread rfl), toNat_of_eq_lo8 (hread rfl)⟩

/-- Settles O32: SEG_APP8 has no precondition, and its content is five bytes. -/
theorem segApp8BuildsColourTransform : Obligations.SegApp8BuildsColourTransform := by
  unfold Obligations.SegApp8BuildsColourTransform
  refine ⟨decode_encode .segApp8, fun s => ?_⟩
  obtain ⟨t, hexec, hframe, -, hread⟩ := exec_builds (i := .segApp8) rfl rfl (app8Content_length s.regs)
  simp only [builtContent, app8Content_eq] at hread
  exact ⟨t, hexec, hframe, hread rfl, hread rfl, hread rfl, hread rfl, hread rfl⟩

/-! ### SEG_SOS (30_encoding.md R80) -/

theorem sosContent_of_neg {r : Regs} (h : r.sCidx.toInt < 0) :
    sosContent r = r.sNs :: (sosPairs r.sNs.toNat ++ [r.near, r.sIlv, 0x00]) := by
  rw [sosContent_eq, sosComponents_eq, if_pos h, List.cons_append]

theorem sosContent_of_nonneg {r : Regs} (h : 0 ≤ r.sCidx.toInt) :
    sosContent r = [0x01, lo8 r.sCidx, 0x00, r.near, r.sIlv, 0x00] := by
  rw [sosContent_eq, sosComponents_eq, if_neg (Int.not_lt.2 h)]
  rfl

/-- In the all-components form the pair of the component with id i + 1 stands after S_NS. -/
theorem sosContent_pair {r : Regs} (h : r.sCidx.toInt < 0) {i j : Nat} (hi : i < r.sNs.toNat) (hj : j < 2) :
    (sosContent r)[2 * i + j + 1]? = [BitVec.ofNat 8 (i + 1), (0x00 : Byte)][j]? := by
  have hin : 2 * i + j < (sosPairs r.sNs.toNat).length := by
    rw [sosPairs_length]
    omega
  rw [sosContent_of_neg h, List.getElem?_cons_succ, List.getElem?_append_left hin, sosPairs_getElem? hi hj]

/-- In the all-components form the three closing bytes stand after S_NS and the pairs. -/
theorem sosContent_closing {r : Regs} (h : r.sCidx.toInt < 0) (j : Nat) :
    (sosContent r)[2 * r.sNs.toNat + j + 1]? = [r.near, r.sIlv, (0x00 : Byte)][j]? := by
  have hlen := sosPairs_length r.sNs.toNat
  rw [sosContent_of_neg h, List.getElem?_cons_succ, List.getElem?_append_right (by omega), hlen,
    Nat.add_sub_cancel_left]

/-- A component index of one byte is its own low byte (41_segments.md R139). -/
theorem lo8_toNat_of_byte {v : Half} (h0 : 0 ≤ v.toInt) (hmax : v.toInt ≤ 255) : ((lo8 v).toNat : Int) = v.toInt := by
  have hpos : 2 * v.toNat < 2 ^ 16 := Nat.lt_of_not_le fun hle => Int.not_lt.2 h0 (BitVec.toInt_neg_iff.2 hle)
  rw [BitVec.toInt_eq_toNat_of_lt hpos] at hmax ⊢
  rw [lo8_toNat]
  omega

/-- Settles O33: above one byte the command raises; the sign of the index chooses between the two forms. -/
theorem segSosBuildsScanHeader : Obligations.SegSosBuildsScanHeader := by
  unfold Obligations.SegSosBuildsScanHeader
  refine ⟨decode_encode .segSos, fun s h => exec_of_contractViolation ?_, fun s hneg => ?_, fun s h0 hmax => ?_⟩
  · rw [commandOutcome, (sosViolates_iff s.regs).2 h]
    rfl
  · have hn : (sosContent s.regs).length = 4 + 2 * s.regs.sNs.toNat := (sosContent_length s.regs).trans (if_pos hneg)
    obtain ⟨t, hexec, hframe, -, hread⟩ :=
      exec_builds (i := .segSos) rfl ((commandOutcome_segSos_ok_iff s).2 (by omega)) hn
    have hclosing {j : Nat} {b : Byte} (hb : [s.regs.near, s.regs.sIlv, (0x00 : Byte)][j]? = some b) :
        segByte t (j + 1 + 2 * s.regs.sNs.toNat) = b := by
      rw [Nat.add_comm, ← Nat.add_assoc]
      exact hread ((sosContent_closing hneg j).trans hb)
    have hpair {i j : Nat} {b : Byte} (hi : i < s.regs.sNs.toNat) (hj : j < 2)
        (hb : [BitVec.ofNat 8 (i + 1), (0x00 : Byte)][j]? = some b) : segByte t (j + 1 + 2 * i) = b := by
      rw [Nat.add_comm, ← Nat.add_assoc]
      exact hread ((sosContent_pair hneg hi hj).trans hb)
    simp only [builtContent, sosContent_of_neg hneg] at hread
    refine ⟨t, hexec, hframe, hread rfl, fun i hi => ⟨?_, hpair hi (Nat.lt_succ_self 1) rfl⟩,
      hclosing (j := 0) rfl, hclosing (j := 1) rfl, hclosing (j := 2) rfl⟩
    have hNs := s.regs.sNs.isLt
    rw [show segByte t (1 + 2 * i) = BitVec.ofNat 8 (i + 1) from hpair hi (Nat.zero_lt_succ 1) rfl]
    exact toNat_ofNat_of_lt (by omega)
  · have hn : (sosContent s.regs).length = 6 := (sosContent_length s.regs).trans (if_neg (Int.not_lt.2 h0))
    obtain ⟨t, hexec, hframe, -, hread⟩ := exec_builds (i := .segSos) rfl ((commandOutcome_segSos_ok_iff s).2 hmax) hn
    simp only [builtContent, sosContent_of_nonneg h0] at hread
    refine ⟨t, hexec, hframe, hread rfl, ?_, hread rfl, hread rfl, hread rfl, hread rfl⟩
    rw [hread (k := 1) rfl]
    exact lo8_toNat_of_byte h0 hmax

/-! ### The content lengths (30_encoding.md R81) -/

theorem commandOutcome_ok_of_code {i : Instr} {s t : State} (h : exec i s = .next t) (h0 : t.regs.code = 0) :
    commandOutcome i s = .ok := by
  cases (exec_eq_next i s).symm.trans h
  exact (outcomeCode_eq_zero_iff _).1 h0

theorem segLen_segSof {s t : State} (h : exec .segSof s = .next t) (h0 : t.regs.code = 0) :
    t.regs.segLen.toNat = 6 + 3 * s.regs.fNf.toNat ∧ 9 ≤ t.regs.segLen.toNat ∧ t.regs.segLen.toNat ≤ 768 := by
  obtain ⟨-, hnf, hmax⟩ := (commandOutcome_segSof_ok_iff s).1 (commandOutcome_ok_of_code h h0)
  have hlen := (segLen_of_built h rfl h0).trans (sofContent_length s.regs)
  omega

theorem segLen_segJfif {s t : State} (h : exec .segJfif s = .next t) (h0 : t.regs.code = 0) :
    t.regs.segLen.toNat = 14 + s.regs.thumbLength ∧ 14 ≤ t.regs.segLen.toNat ∧ t.regs.segLen.toNat ≤ 195089 := by
  have hlen := (segLen_of_built h rfl h0).trans (jfifContent_length s.regs s.thumb s.regs.thumbLength)
  have hmax := thumbLength_le s.regs
  rw [thumbCap] at hmax
  omega

/-- SEG_LSE succeeds in every state, so its length needs no hypothesis on CODE. -/
theorem segLen_segLse {s t : State} (h : exec .segLse s = .next t) : t.regs.segLen.toNat = 11 := by
  have h0 : t.regs.code = 0 := by
    cases (exec_eq_next .segLse s).symm.trans h
    rfl
  exact (segLen_of_built h rfl h0).trans (lseContent_length s.regs)

/-- SEG_APP8 succeeds in every state too. -/
theorem segLen_segApp8 {s t : State} (h : exec .segApp8 s = .next t) : t.regs.segLen.toNat = 5 := by
  have h0 : t.regs.code = 0 := by
    cases (exec_eq_next .segApp8 s).symm.trans h
    rfl
  exact (segLen_of_built h rfl h0).trans (app8Content_length s.regs)

theorem segLen_segSos {s t : State} (h : exec .segSos s = .next t) (h0 : t.regs.code = 0) :
    t.regs.segLen.toNat = (if s.regs.sCidx.toInt < 0 then 4 + 2 * s.regs.sNs.toNat else 6) ∧
      4 ≤ t.regs.segLen.toNat ∧ t.regs.segLen.toNat ≤ 514 := by
  have hlen := (segLen_of_built h rfl h0).trans (sosContent_length s.regs)
  have hNs := s.regs.sNs.isLt
  refine ⟨hlen, ?_⟩
  rw [hlen]
  split <;> omega

/-- The operands of a SEG_JFIF with a 255 x 255 thumbnail, the longest content there is (00_scope.md R6). -/
def largestThumbnail : State :=
  { State.reset with
    regs := { Regs.reset with jXdens := 1, jYdens := 1, jXthumb := 255, jYthumb := 255, jTpres := 1 } }

/-- Settles O34: the length of each content, under the precondition of its command, and a SEG_JFIF that reaches
SEG_CAP. -/
theorem contentLengths : Obligations.ContentLengths := by
  unfold Obligations.ContentLengths
  refine ⟨fun s t => segLen_segSof, fun s t => segLen_segJfif, fun s t => segLen_segLse, fun s t => segLen_segApp8,
    fun s t => segLen_segSos, rfl, largestThumbnail, _, exec_eq_next .segJfif largestThumbnail, rfl, ?_⟩
  obtain ⟨hlen, -, -⟩ := segLen_segJfif (exec_eq_next .segJfif largestThumbnail) rfl
  exact hlen

/-! ### Framing (30_encoding.md R83, 70_reset_and_hazards.md R197) -/

theorem framable_eq_false_iff (s : State) : s.framable = false ↔ 65533 < s.regs.segLen.toNat := by
  rw [State.framable, decide_eq_false_iff_not, not_le]

/-- Every content but that of SEG_JFIF is short. -/
theorem segLen_le_of_ne_segJfif {i : Instr} {s t : State} (h : exec i s = .next t) (hb : buildsSegment i = true)
    (h0 : t.regs.code = 0) (hi : i ≠ .segJfif) : t.regs.segLen.toNat ≤ 768 := by
  cases i with
  | pcDefault => cases hb
  | pcIsDefault => cases hb
  | pcIsValid => cases hb
  | segSof =>
    obtain ⟨-, -, hmax⟩ := segLen_segSof h h0
    exact hmax
  | segJfif => exact absurd rfl hi
  | segLse => exact (segLen_segLse h).trans_le (by decide)
  | segApp8 => exact (segLen_segApp8 h).trans_le (by decide)
  | segSos =>
    obtain ⟨-, -, hmax⟩ := segLen_segSos h h0
    exact hmax.trans (by decide)

/-- A thumbnail is too long to frame only when it has a width. -/
theorem lt_thumbLength_iff (r : Regs) (n : Nat) :
    n < r.thumbLength ↔ r.jXthumb.toNat ≠ 0 ∧ n < 3 * r.jXthumb.toNat * r.jYthumb.toNat := by
  by_cases h : r.jXthumb.toNat = 0
  · simp [Regs.thumbLength, h]
  · simp [Regs.thumbLength, h]

/-- The two length bytes of a framed content are its length, which fits them, high byte first. -/
theorem frameSegment_of_le (code : Byte) {content : List Byte} (h : content.length ≤ 65533) :
    ∃ a b : Byte, frameSegment code content = some ([0xFF, code, a, b] ++ content) ∧
      256 * a.toNat + b.toNat = 2 + content.length := by
  have hfits : framedLength content ≤ 65535 := by
    rw [framedLength]
    omega
  refine ⟨_, _, if_pos hfits, ?_⟩
  rw [hi8_toNat, lo8_toNat, toNat_ofNat_of_lt (Nat.lt_succ_of_le hfits)]
  exact Nat.div_add_mod _ 256

theorem frameSegment_of_lt (code : Byte) {content : List Byte} (h : 65533 < content.length) :
    frameSegment code content = none := by
  refine if_neg ?_
  rw [framedLength]
  omega

/-- Settles O50: every other content is short, and that of SEG_JFIF is fourteen header bytes and the thumbnail. -/
theorem onlyLargeThumbnailsCannotBeFramed : Obligations.OnlyLargeThumbnailsCannotBeFramed := by
  unfold Obligations.OnlyLargeThumbnailsCannotBeFramed
  refine ⟨fun i s t h hb h0 => ?_, fun code content => frameSegment_of_lt code,
    fun code content => frameSegment_of_le code⟩
  rw [framable_eq_false_iff]
  by_cases hi : i = .segJfif
  · subst hi
    obtain ⟨hlen, -, -⟩ := segLen_segJfif h h0
    rw [eq_self_iff_true, true_and, ← lt_thumbLength_iff]
    omega
  · have hle := segLen_le_of_ne_segJfif h hb h0 hi
    exact ⟨fun hlt => by omega, fun ⟨hjfif, _⟩ => absurd hjfif hi⟩

end Sys2Proof.Machine

/-! ## Proofs: preset coding parameters (40_threshold.md R101 to R111) -/

namespace Sys2Proof.Machine

/-! ### clamp (40_threshold.md R101) -/

/-- Settles O16: each clause is one branch of the clamp. -/
theorem clampSnapsToLowBound : Obligations.ClampSnapsToLowBound := by
  unfold Obligations.ClampSnapsToLowBound
  refine ⟨fun i j m h => if_pos h, fun i j m hlow hhigh => if_neg ?_, fun i j m h => ?_, rfl, rfl, rfl, rfl, rfl⟩
  · omega
  · exact if_pos (show m < i ∨ i < j by omega)

/-- A clamp on the naturals is its argument exactly where that lies between the bounds. -/
theorem clamp_inside_or_outside (i j m : Nat) :
    j ≤ i ∧ i ≤ m ∧ clamp i j m = i ∨ ¬(j ≤ i ∧ i ≤ m) ∧ clamp i j m = j := by
  by_cases h : j ≤ i ∧ i ≤ m
  · obtain ⟨hlow, hhigh⟩ := h
    exact .inl ⟨hlow, hhigh, clamp_of_inside hlow hhigh⟩
  · exact .inr ⟨h, clamp_of_outside (by omega)⟩

/-! ### MAX_NEAR (40_threshold.md R102) -/

theorem maxNear_le (c : Config) (m : Nat) : maxNear c m ≤ 255 := by
  unfold maxNear
  cases c.maxNearTable.lookup m with
  | none => exact Nat.min_le_left 255 (m / 2)
  | some v => exact Nat.le_of_lt_succ v.isLt

/-- Settles O17: the table's entries are bytes, and a legal entry stays below m. -/
theorem maxNearIsBounded : Obligations.MaxNearIsBounded := by
  unfold Obligations.MaxNearIsBounded
  refine ⟨maxNear_le, fun c m hc hm => Nat.le_sub_one_of_lt (maxNear_lt hc hm), fun m => ?_, rfl⟩
  show min 255 (m / 2) = _
  split <;> omega

/-! ### DefaultPC (40_threshold.md R104 to R106) -/

/-- Settles O18: the thresholds rise, and the last is at most m or n + 1. -/
theorem derivedFieldsFit : Obligations.DerivedFieldsFit := by
  unfold Obligations.DerivedFieldsFit
  intro m n hm hn
  obtain ⟨hlow, h12, h23⟩ := defaultPc_rising m n
  have h3 := defaultPc_t3_le m n
  exact ⟨defaultPc_maxval m n, defaultPc_reset m n, hlow, h12, h23, h3, by omega,
    fun s => storeDefaults_toNat s hm hn⟩

theorem defaultPc_of_ge {m : Nat} (h : 128 ≤ m) (n : Nat) : defaultPc m n = defaultPcUpper m n := if_pos h

theorem defaultPc_of_lt {m : Nat} (h : m < 128) (n : Nat) : defaultPc m n = defaultPcLower m n :=
  if_neg (Nat.not_le.2 h)

/-- Settles O19: in each branch the three thresholds are clamps of the formulas. -/
theorem derivedThresholdsFollowTheFormula : Obligations.DerivedThresholdsFollowTheFormula := by
  unfold Obligations.DerivedThresholdsFollowTheFormula
  refine fun m n => ⟨fun h => ?_, fun h => ?_, defaultPc_maxval m n, defaultPc_reset m n⟩
  · rw [defaultPc_of_ge h]
    exact ⟨clamp_inside_or_outside _ _ m, clamp_inside_or_outside _ _ m, clamp_inside_or_outside _ _ m⟩
  · rw [defaultPc_of_lt h]
    exact ⟨clamp_inside_or_outside _ _ m, clamp_inside_or_outside _ _ m, clamp_inside_or_outside _ _ m⟩

/-- A maximum error below m leaves room for the thresholds, so a derived set ends at most at m (40_threshold.md
R106 (a)). -/
theorem defaultPc_t3_le_of_lt {m n : Nat} (h : n < m) : (defaultPc m n).t3 ≤ m := by
  have h3 := defaultPc_t3_le m n
  omega

/-! ### The legality chain (40_threshold.md R109) -/

/-- One check of the chain: a field that is not 0 lies between its bounds. -/
def fieldLegal (x low high : Nat) : Prop := x = 0 ∨ low ≤ x ∧ x ≤ high

theorem fieldLegal_zero (low high : Nat) : fieldLegal 0 low high := .inl rfl

theorem fieldLegal_of_between {x low high : Nat} (hlow : low ≤ x) (hhigh : x ≤ high) : fieldLegal x low high :=
  .inr ⟨hlow, hhigh⟩

/-- A check as `isValid` writes it: the chain goes on exactly where the field is legal. -/
theorem check_eq_true_iff (x low high : Nat) (rest : Bool) :
    (if x ≠ 0 ∧ ¬(low ≤ x ∧ x ≤ high) then false else rest) = true ↔
      fieldLegal x low high ∧ rest = true := by
  have hneg : fieldLegal x low high ↔ ¬(x ≠ 0 ∧ ¬(low ≤ x ∧ x ≤ high)) := by
    rw [not_and_not_right, fieldLegal, or_iff_not_imp_left]
  rw [hneg]
  split
  · next h => exact iff_of_false Bool.false_ne_true fun ⟨hnot, _⟩ => hnot h
  · next h => exact (and_iff_right h).symm

/-- `IsValid` is the conjunction of its checks. -/
theorem isValid_iff (c : PresetParams) (mcv n : Nat) : isValid c mcv n = true ↔
    fieldLegal c.maxval 1 mcv ∧ fieldLegal c.t1 (n + 1) (effectiveMaxval c mcv) ∧
    fieldLegal c.t2 (effectiveT1 c (defaultPc (effectiveMaxval c mcv) n)) (effectiveMaxval c mcv) ∧
    fieldLegal c.t3 (effectiveT2 c (defaultPc (effectiveMaxval c mcv) n)) (effectiveMaxval c mcv) ∧
    fieldLegal c.reset 3 (max 255 (effectiveMaxval c mcv)) := by
  simp only [isValid, check_eq_true_iff, and_true]

theorem effectiveMaxval_eq (c : PresetParams) (mcv : Nat) :
    effectiveMaxval c mcv = if c.maxval = 0 then mcv else c.maxval := ite_not _ _ _

theorem effectiveT1_eq (c d : PresetParams) : effectiveT1 c d = if c.t1 = 0 then d.t1 else c.t1 := ite_not _ _ _

theorem effectiveT2_eq (c d : PresetParams) : effectiveT2 c d = if c.t2 = 0 then d.t2 else c.t2 := ite_not _ _ _

/-- A set whose MAXVAL is the maximum it is checked against has that maximum in effect. -/
theorem effectiveMaxval_of_eq {c : PresetParams} {mcv : Nat} (h : c.maxval = mcv) : effectiveMaxval c mcv = mcv := by
  rw [effectiveMaxval, h, ite_self]

theorem effectiveT1_self (d : PresetParams) : effectiveT1 d d = d.t1 := ite_self _

theorem effectiveT2_self (d : PresetParams) : effectiveT2 d d = d.t2 := ite_self _

/-- A derived set is legal where the maximum error is below m (40_threshold.md R106 (b)). -/
theorem isValid_defaultPc {m n : Nat} (h : n < m) : isValid (defaultPc m n) m n = true := by
  obtain ⟨hlow, h12, h23⟩ := defaultPc_rising m n
  have h3 := defaultPc_t3_le_of_lt h
  rw [isValid_iff, effectiveMaxval_of_eq (defaultPc_maxval m n), effectiveT1_self, effectiveT2_self,
    defaultPc_maxval, defaultPc_reset, stdReset]
  exact ⟨fieldLegal_of_between (by omega) le_rfl, fieldLegal_of_between hlow (by omega),
    fieldLegal_of_between h12 (by omega), fieldLegal_of_between h23 h3, fieldLegal_of_between (by omega) (by omega)⟩

/-- Settles O20: a legal MAX_NEAR keeps the maximum error below m. -/
theorem defaultsAreMonotoneAndLegal : Obligations.DefaultsAreMonotoneAndLegal := by
  unfold Obligations.DefaultsAreMonotoneAndLegal
  intro c m n hc hm _ hn
  have hlt : n < m := Nat.lt_of_le_of_lt hn (maxNear_lt hc hm)
  obtain ⟨hlow, h12, h23⟩ := defaultPc_rising m n
  exact ⟨hlow, h12, h23, defaultPc_t3_le_of_lt hlt, defaultPc_reset m n, isValid_defaultPc hlt⟩

/-- Settles O25: a cleared field passes its own check, and the checks before it do not read it. -/
theorem zeroFieldsAreNotChecked : Obligations.ZeroFieldsAreNotChecked := by
  unfold Obligations.ZeroFieldsAreNotChecked
  refine ⟨fun c mcv n h => ?_, fun mcv n => ?_, rfl, rfl, rfl⟩
  · obtain ⟨hmaxval, ht1, ht2, ht3, hreset⟩ := (isValid_iff c mcv n).1 h
    simp only [isValid_iff]
    exact ⟨⟨hmaxval, ht1, ht2, ht3, fieldLegal_zero _ _⟩,
      ⟨hmaxval, ht1, ht2, fieldLegal_zero _ _, hreset⟩,
      ⟨hmaxval, ht1, fieldLegal_zero _ _, fieldLegal_zero _ _, hreset⟩,
      ⟨hmaxval, fieldLegal_zero _ _, fieldLegal_zero _ _, fieldLegal_zero _ _, hreset⟩⟩
  · rw [isValid_iff]
    exact ⟨fieldLegal_zero _ _, fieldLegal_zero _ _, fieldLegal_zero _ _, fieldLegal_zero _ _, fieldLegal_zero _ _⟩

/-! ### The commands (40_threshold.md R107, R108, R110) -/

/-- PC_DEFAULT succeeds exactly where its precondition holds (40_threshold.md R107). -/
theorem commandOutcome_pcDefault_ok_iff (s : State) : commandOutcome .pcDefault s = .ok ↔
    s.regs.msv.toNat ≠ 0 ∧ s.regs.near.toNat ≤ maxNear s.config s.regs.msv.toNat := by
  rw [commandOutcome, guardOutcome_eq_ok_iff, ← Bool.not_eq_true, pcDefaultViolates_iff, not_or, not_lt]

/-- PC_DEFAULT where its precondition holds: the derived set is stored and CODE is 0. -/
theorem exec_pcDefault_of_ok {s : State} (h : commandOutcome .pcDefault s = .ok) : exec .pcDefault s =
    .next (finish .ok (storeDefaults (defaultPc (msvOperand s.regs) (nearOperand s.regs)) s)) := by
  rw [exec_eq_next, commandResult_of_ok h]
  rfl

/-- Settles O22: the precondition decides between a write of STATUS and the derived set, whose MAXVAL is MSV itself. -/
theorem pcDefaultDerivesThePreset : Obligations.PcDefaultDerivesThePreset := by
  unfold Obligations.PcDefaultDerivesThePreset
  refine ⟨decode_encode .pcDefault, fun s h => exec_of_contractViolation ?_, fun s hm hn => ?_,
    rfl, rfl, rfl, rfl, rfl, rfl, rfl, rfl⟩
  · rw [commandOutcome, (pcDefaultViolates_iff s).2 h]
    rfl
  · have hmaxval : BitVec.ofNat 16 (defaultPc s.regs.msv.toNat s.regs.near.toNat).maxval = s.regs.msv := by
      rw [defaultPc_maxval, BitVec.ofNat_toNat, BitVec.setWidth_eq]
    have hreset : BitVec.ofNat 16 (defaultPc s.regs.msv.toNat s.regs.near.toNat).reset = 64 := by
      rw [defaultPc_reset]
      rfl
    rw [exec_pcDefault_of_ok ((commandOutcome_pcDefault_ok_iff s).2 ⟨hm, hn⟩), storeDefaults, hmaxval, hreset]
    rfl

/-- PC_ISDEFAULT writes RESULT and CODE, nothing else: an OK outcome leaves FAULT as it is (10_state.md R26). -/
theorem exec_pcIsDefault_eq (s : State) : exec .pcIsDefault s =
    .next { s with regs := { s.regs with result := boolBit (isDefault (candidate s.regs)), code := 0 } } := rfl

/-- PC_ISVALID writes RESULT and CODE, nothing else. -/
theorem exec_pcIsValid_eq (s : State) : exec .pcIsValid s = .next
    { s with
      regs := { s.regs with
        result := boolBit (isValid (candidate s.regs) s.regs.mcv.toNat s.regs.near.toNat)
        code := 0 } } := rfl

/-- A candidate is all zero exactly where its registers are. -/
theorem isDefault_candidate_iff (r : Regs) : isDefault (candidate r) = true ↔
    r.pMaxval = 0 ∧ r.pT1 = 0 ∧ r.pT2 = 0 ∧ r.pT3 = 0 ∧ r.pReset = 0 := by
  simp [isDefault_iff, candidate, BitVec.toNat_eq]

/-- Settles O23: RESULT is the bit of the test. -/
theorem pcIsDefaultTestsForAllZero : Obligations.PcIsDefaultTestsForAllZero := by
  unfold Obligations.PcIsDefaultTestsForAllZero
  refine ⟨decode_encode .pcIsDefault, fun s => ?_⟩
  simp only [exec_pcIsDefault_eq, boolBit, isDefault_candidate_iff]

/-- Settles O24: RESULT is the bit of the conjunction of the checks, on the registers' values. -/
theorem pcIsValidTestsTheLegalityChain : Obligations.PcIsValidTestsTheLegalityChain := by
  unfold Obligations.PcIsValidTestsTheLegalityChain
  refine ⟨decode_encode .pcIsValid, fun s => ⟨_, exec_pcIsValid_eq s, ?_⟩⟩
  refine (boolBit_eq_one _).trans ((isValid_iff _ _ _).trans ?_)
  rw [effectiveT1_eq, effectiveT2_eq, effectiveMaxval_eq]
  rfl

/-- A candidate copied from the O_* a derived set was stored in is that set (40_threshold.md R105, R106). -/
theorem candidate_of_storeDefaults (s : State) {m n : Nat} (hm : m ≤ 65535) (hn : n ≤ 255) {r : Regs}
    (hmaxval : r.pMaxval = (storeDefaults (defaultPc m n) s).regs.oMaxval)
    (ht1 : r.pT1 = (storeDefaults (defaultPc m n) s).regs.oT1)
    (ht2 : r.pT2 = (storeDefaults (defaultPc m n) s).regs.oT2)
    (ht3 : r.pT3 = (storeDefaults (defaultPc m n) s).regs.oT3)
    (hreset : r.pReset = (storeDefaults (defaultPc m n) s).regs.oReset) : candidate r = defaultPc m n := by
  obtain ⟨e0, e1, e2, e3, e4⟩ := storeDefaults_toNat s hm hn
  rw [candidate, hmaxval, ht1, ht2, ht3, hreset, e1, e2, e3, e0.trans (defaultPc_maxval m n).symm,
    e4.trans (defaultPc_reset m n).symm]

/-- Settles O21: the candidate is the derived set, which is legal because the precondition of PC_DEFAULT held. -/
theorem derivedSetPassesValidation : Obligations.DerivedSetPassesValidation := by
  unfold Obligations.DerivedSetPassesValidation
  intro s t u hc hexec h0 hmaxval ht1 ht2 ht3 hreset hmcv hnear
  have hok := commandOutcome_ok_of_code hexec h0
  obtain ⟨hm, hn⟩ := (commandOutcome_pcDefault_ok_iff s).1 hok
  cases (exec_pcDefault_of_ok hok).symm.trans hexec
  have hcandidate : candidate u.regs = defaultPc s.regs.msv.toNat s.regs.near.toNat :=
    candidate_of_storeDefaults s (Nat.le_of_lt_succ s.regs.msv.isLt) (Nat.le_of_lt_succ s.regs.near.isLt)
      hmaxval ht1 ht2 ht3 hreset
  have hlt : s.regs.near.toNat < s.regs.msv.toNat :=
    Nat.lt_of_le_of_lt hn (maxNear_lt hc (Nat.one_le_iff_ne_zero.2 hm))
  rw [exec_pcIsValid_eq, hcandidate, hmcv, hnear, isValid_defaultPc hlt]
  rfl

end Sys2Proof.Machine

/-! ## Proofs: the append primitives and the thumbnail check (41_segments.md R130, R136) -/

namespace Sys2Proof.Machine

/-- Settles O27: the two bytes of a 16-bit value are its quotient and its remainder by 256. -/
theorem appendIsBigEndian : Obligations.AppendIsBigEndian := by
  unfold Obligations.AppendIsBigEndian
  exact ⟨fun _ _ => rfl, fun _ v => ⟨hi8 v, lo8 v, rfl, hi8_toNat v, lo8_toNat v⟩, rfl, rfl⟩

/-- Rejected parameters write only CODE: FAULT stays as it is (60_exceptions.md R161, 10_state.md R26). -/
theorem exec_of_invalidParameters {i : Instr} {s : State} (h : commandOutcome i s = .invalidParameters) :
    exec i s = .next { s with regs := { s.regs with code := 1 } } := by
  have hne : commandOutcome i s ≠ .ok := by
    rw [h]
    decide
  rw [exec_eq_next, commandResult_of_failed hne, h]
  rfl

/-- A SEG_JFIF that succeeds: CODE is 0 and SEG_LEN counts the header and the thumbnail (41_segments.md R135). -/
theorem exec_segJfif_of_ok {s : State} (h : commandOutcome .segJfif s = .ok) :
    ∃ t, exec .segJfif s = .next t ∧ t.regs.code = 0 ∧ t.regs.segLen.toNat = 14 + s.regs.thumbLength := by
  have hexec := exec_eq_next .segJfif s
  have h0 := (commandResult_code .segJfif s).trans ((outcomeCode_eq_zero_iff _).2 h)
  obtain ⟨hlen, -, -⟩ := segLen_segJfif hexec h0
  exact ⟨_, hexec, h0, hlen⟩

theorem thumbLength_of_noWidth {r : Regs} (h : r.jXthumb.toNat = 0) : r.thumbLength = 0 := if_pos h

theorem thumbLength_of_width {r : Regs} (h : r.jXthumb.toNat ≠ 0) :
    r.thumbLength = 3 * r.jXthumb.toNat * r.jYthumb.toNat := if_neg h

theorem thumbSupplied_of_absent {r : Regs} (h : r.jTpres = 0) : thumbSupplied r = false := by
  rw [thumbSupplied, h]
  rfl

theorem thumbSupplied_of_present {r : Regs} (h : r.jTpres = 1) : thumbSupplied r = true := by
  rw [thumbSupplied, h]
  rfl

/-- Settles O30: the precondition holds, so each row of the thumbnail check is the outcome of the command. -/
theorem jfifThumbnailPolicy : Obligations.JfifThumbnailPolicy := by
  unfold Obligations.JfifThumbnailPolicy
  refine ⟨rfl, fun s hu hx hy => ?_⟩
  have hout := commandOutcome_segJfif hu hx hy
  refine ⟨fun hw => ?_, fun hw htp hp => exec_of_invalidParameters ?_, fun hw htp hp => ?_,
    fun hw htp hp => exec_of_contractViolation ?_, fun hw htp hp => exec_of_invalidParameters ?_⟩
  · have hok := exec_segJfif_of_ok (hout.trans (thumbLen_outcome_ok (.inl hw) _))
    rwa [thumbLength_of_noWidth hw] at hok
  · rw [hout, hp, thumbSupplied_of_absent htp, thumbLen_intent_absent hw.ne']
    rfl
  · have hok := exec_segJfif_of_ok
      (hout.trans (thumbLen_outcome_ok (.inr ⟨hp, thumbSupplied_of_present htp⟩) _))
    rwa [thumbLength_of_width hw.ne'] at hok
  · rw [hout, hp, thumbSupplied_of_absent htp, thumbLen_observed_absent hw.ne']
    rfl
  · rw [hout, hp, thumbSupplied_of_present htp, thumbLen_observed_supplied hw.ne']
    rfl

end Sys2Proof.Machine

/-! ## Proofs: how a command ends in STATUS, and when a step stops (60_exceptions.md R160, R161, R170, R172, R177) -/

namespace Sys2Proof.Machine

/-! ### FAULT as a function of CODE (10_state.md R25, R26) -/

theorem faultAfter_eq_ite_code (o : CommandOutcome) (f : BitVec 1) :
    faultAfter o f = if o.code = 2 ∨ o.code = 3 then 1 else f := by cases o <;> rfl

/-- Among the failures only rejected parameters leave FAULT as it was. -/
theorem faultAfter_of_code_ne_zero {o : CommandOutcome} (h : o.code ≠ 0) (f : BitVec 1) :
    faultAfter o f = if o.code = 1 then f else 1 := by
  cases o with
  | ok => exact absurd rfl h
  | invalidParameters => rfl
  | contractViolation => rfl
  | illegalCommand => rfl

/-! ### A command that fails (60_exceptions.md R160, R161) -/

/-- A command that ends with CODE other than 0 has recorded its outcome and done no more. -/
theorem commandEffect_of_code_ne_zero {i : Instr} {s t : State} (he : CommandEffect i s t) (h : t.regs.code ≠ 0) :
    ∃ o, t = finish o s := by
  cases he with
  | failed o _ ht => exact ⟨o, ht⟩
  | derived _ _ ht => subst ht; exact absurd rfl h
  | tested b _ ht => subst ht; exact absurd rfl h
  | built code content _ _ ht => subst ht; exact absurd rfl h

/-- The same of any command word, illegal ones included. -/
theorem performCommand_of_code_ne_zero {w : Word} {s t : State} (ht : performCommand w s = .next t)
    (h : t.regs.code ≠ 0) : ∃ o, t = finish o s := by
  rcases performCommand_cases ht with ⟨i, -, he⟩ | ⟨e, -, ht⟩
  · exact commandEffect_of_code_ne_zero he h
  · exact ⟨.illegalCommand, ht⟩

/-- Settles O11: every command word ends in an outcome, and a failing one is that outcome recorded after the store of
the word. -/
theorem failedCommandWritesOnlyStatus : Obligations.FailedCommandWritesOnlyStatus := by
  unfold Obligations.FailedCommandWritesOnlyStatus
  intro s w hact
  obtain ⟨t, ht⟩ := performCommand_next w (afterWrite cmdIndex w s)
  obtain ⟨hcmd, -, -⟩ := performCommand_keeps_host ht
  obtain ⟨o, hcode, hfault⟩ := performCommand_status ht
  refine ⟨t, (step_command hact).trans ht, hcmd, hcode ▸ outcomeCode_le_three o, fun hne => ?_, fun h0 => ?_⟩
  · obtain ⟨o, rfl⟩ := performCommand_of_code_ne_zero ht hne
    rw [finish_regs, ← faultAfter_of_code_ne_zero hne]
    rfl
  · rw [hfault, afterWrite_regs, writeIndex_fault]
    exact faultAfter_of_code_lt_two (by rw [← hcode, h0]; decide) _

/-! ### STATUS is no operand of a command (60_exceptions.md R170) -/

/-- The state with other values in STATUS. -/
def withStatus (code : BitVec 3) (fault : BitVec 1) (s : State) : State :=
  { s with regs := { s.regs with code := code, fault := fault } }

/-- No command reads STATUS: with other values there it has the same outcome, and ends in the same state but for the
FAULT that outcome leaves. -/
theorem commandResult_withStatus (i : Instr) (s : State) (code : BitVec 3) (fault : BitVec 1) :
    commandResult i (withStatus code fault s) =
      withStatus (commandOutcome i s).code (faultAfter (commandOutcome i s) fault) (commandResult i s) := by
  have ho : commandOutcome i (withStatus code fault s) = commandOutcome i s := by cases i <;> rfl
  by_cases h : commandOutcome i s = .ok
  · rw [commandResult_of_ok h, commandResult_of_ok (ho.trans h), h]
    cases i <;> rfl
  · rw [commandResult_of_failed h, commandResult_of_failed (ho ▸ h), ho]
    rfl

/-- Settles O12: neither the outcome nor the writes of a command depend on STATUS. -/
theorem statusNeverBlocksCommands : Obligations.StatusNeverBlocksCommands := by
  unfold Obligations.StatusNeverBlocksCommands
  intro i s t code fault h
  cases (exec_eq_next i s).symm.trans h
  have hstatus := commandResult_withStatus i s code fault
  rw [faultAfter_eq_ite_code] at hstatus
  exact (exec_eq_next i (withStatus code fault s)).trans (congrArg _ hstatus)

/-! ### When a step stops (60_exceptions.md R172, R177) -/

/-- Settles O47: past its last statement the host has no next action. -/
theorem idleBlockHoldsItsState : Obligations.IdleBlockHoldsItsState := by
  unfold Obligations.IdleBlockHoldsItsState
  exact fun s h => step_idle (List.getElem?_eq_none h)

theorem hostWrite_next (idx : Byte) (v : Word) (s : State) : ∃ t, hostWrite idx v s = .next t := by
  unfold hostWrite
  split
  · exact performCommand_next v _
  · exact ⟨_, rfl⟩

/-- A step completes when the host's next action is no SEG_BUF read at or above SEG_CAP. -/
theorem step_next_of_lt_segCap {s : State} (h : ∀ k, nextAction s = some (.rdb k) → k < segCap) :
    ∃ t, step s = .next t := by
  cases ha : nextAction s with
  | none => exact ⟨s, step_idle ha⟩
  | some a =>
    cases a with
    | rdb k => exact ⟨_, step_readByte ha (h k ha)⟩
    | wr idx v => exact step_eq_perform ha ▸ hostWrite_next idx v s
    | rd idx => exact ⟨_, step_eq_perform ha⟩
    | wrt a b => exact ⟨_, step_eq_perform ha⟩
    | skipz idx k => exact ⟨_, step_eq_perform ha⟩
    | reset => exact ⟨_, step_eq_perform ha⟩

/-- Settles O48: a SEG_BUF read at or above SEG_CAP is refused, and every other step completes. -/
theorem stepStopsOnlyOnMissingOffsets : Obligations.StepStopsOnlyOnMissingOffsets := by
  unfold Obligations.StepStopsOnlyOnMissingOffsets
  refine ⟨fun s => ⟨fun ⟨t, ht⟩ k hact => ?_, step_next_of_lt_segCap⟩, fun s r => ⟨fun hr => ?_, ?_⟩⟩
  · by_contra hk
    cases (step_readByte_refused hact (Nat.le_of_not_lt hk)).symm.trans ht
  · have hread : ¬∀ k, nextAction s = some (.rdb k) → k < segCap := fun h => by
      obtain ⟨t, ht⟩ := step_next_of_lt_segCap h
      cases ht.symm.trans hr
    push Not at hread
    obtain ⟨k, hact, hk⟩ := hread
    cases (step_readByte_refused hact hk).symm.trans hr
    exact ⟨k, hact, hk, rfl⟩
  · rintro ⟨k, hact, hk, rfl⟩
    exact step_readByte_refused hact hk

end Sys2Proof.Machine

/-! ## Proofs: reset, the first command after it, and the set between PC_ISVALID and SEG_LSE
(70_reset_and_hazards.md R190, R193, R195) -/

namespace Sys2Proof.Machine

/-! ### Reset (70_reset_and_hazards.md R190) -/

/-- Where SEG_LEN is 0 the host reads free draws only (20_memory.md R58). -/
theorem segByte_of_empty {s : State} (h : s.regs.segLen = 0) (k : Nat) :
    segByte s k = Config.freeSegByte s.drawEpoch k := by
  rw [segByte, h]
  exact if_neg (Nat.not_lt_zero k)

/-- Settles O13: a reset installs the reset register file, whose SEG_LEN is 0, and every other step keeps FAULT. -/
theorem resetClearsTheBlock : Obligations.ResetClearsTheBlock := by
  unfold Obligations.ResetClearsTheBlock
  refine ⟨readIndex_reset, segByte_of_empty rfl, fun s hact => ?_, fun s t hstep hf h0 => ?_⟩
  · exact ⟨_, step_eq_perform hact, readIndex_reset, segByte_of_empty rfl, rfl, rfl, rfl, rfl, rfl, rfl⟩
  · by_contra hne
    cases h0.symm.trans (step_keeps_fault hstep hf hne)

/-- Settles O14: both byte spaces are empty, every register is 0, and the default parameters are legal. -/
theorem resetSatisfiesInvariant : Obligations.ResetSatisfiesInvariant where
  segWf := List.Pairwise.nil
  thumbWf := List.Pairwise.nil
  segInside := fun _ hc => absurd hc List.not_mem_nil
  thumbInside := fun _ hc => absurd hc List.not_mem_nil
  lenInside := Nat.zero_le _
  contentHeld := fun k hk => absurd hk (Nat.not_lt_zero k)
  codeLegal := Nat.zero_le _
  faultRecorded := fun h2 => absurd h2 (Nat.not_succ_le_zero 1)
  markerKnown := .inl ⟨rfl, rfl⟩
  derivedSet := .inl ⟨rfl, rfl, rfl, rfl, rfl⟩
  configLegal := rfl

/-! ### The first command after reset (70_reset_and_hazards.md R193) -/

/-- A command issued first runs on the state it was issued in, with its word in CMD. -/
theorem step_withFetchWord_encode (s : State) (i : Instr) : step (s.withFetchWord 32 (encode i).toNat) =
    .next (commandResult i (afterWrite cmdIndex (encode i) (loadProgram [.wr cmdIndex (encode i)] s))) := by
  rw [withFetchWord_toNat, step_command rfl, performCommand_of_instr (decode_encode i), exec_eq_next]

/-- The host reads the content a segment command that succeeds has built (10_state.md R33). -/
theorem segment_commandResult {i : Instr} {s : State} (hb : buildsSegment i = true) (hok : commandOutcome i s = .ok) :
    (commandResult i s).segment = builtContent i s := by
  obtain ⟨hbuilt, -⟩ := segmentRegistersFollowTheLastSegment i s _ (exec_eq_next i s)
  obtain ⟨-, -, -, hsegment, -⟩ := hbuilt hb ((commandResult_code i s).trans ((outcomeCode_eq_zero_iff _).2 hok))
  exact hsegment

/-- Settles O49: outcome, RESULT and content of each command, evaluated on registers that are all 0. -/
theorem firstCommandsAfterReset : Obligations.FirstCommandsAfterReset := by
  unfold Obligations.FirstCommandsAfterReset
  have hstep := step_withFetchWord_encode State.reset
  exact ⟨⟨_, hstep .pcDefault, rfl, rfl⟩, ⟨_, hstep .pcIsDefault, rfl, rfl⟩, ⟨_, hstep .pcIsValid, rfl, rfl⟩,
    ⟨_, hstep .segSof, rfl⟩, ⟨_, hstep .segJfif, rfl⟩, ⟨_, hstep .segLse, segment_commandResult rfl rfl⟩,
    ⟨_, hstep .segApp8, segment_commandResult rfl rfl⟩, ⟨_, hstep .segSos, segment_commandResult rfl rfl⟩⟩

/-! ### The candidate set between PC_ISVALID and SEG_LSE (70_reset_and_hazards.md R195) -/

/-- No command word, legal or not, writes P_MAXVAL to P_RESET. -/
theorem performCommand_candidate {w : Word} {s t : State} (h : performCommand w s = .next t) :
    candidate t.regs = candidate s.regs := by
  rcases performCommand_cases h with ⟨i, -, he⟩ | ⟨e, -, ht⟩
  · exact commandEffect_candidate he
  · subst ht; rfl

/-- Every action but a reset and a write to P_MAXVAL to P_RESET keeps the candidate set. -/
theorem step_keeps_candidate {s t : State} {a : HostAction} (hact : nextAction s = some a)
    (hkeep : a.keepsCandidate = true) (h : step s = .next t) : candidate t.regs = candidate s.regs := by
  cases step_cases h with
  | idle _ ht => subst ht; rfl
  | command w _ ht => exact (performCommand_candidate ht).trans rfl
  | write idx v _ ha ht =>
    cases ha.symm.trans hact
    subst ht
    exact writeIndex_candidate s.regs idx v hkeep
  | read idx _ ht => subst ht; rfl
  | readByte k _ _ ht => subst ht; rfl
  | writeThumb a b _ ht => rw [ht, newEpoch_regs, advanceHost_regs, storeThumb_regs]
  | skip idx k _ ht => subst ht; rfl
  | reset ha _ => cases ha.symm.trans hact; cases hkeep

/-- The two bytes of a 16-bit field, most significant first, give the field back (20_memory.md R51). -/
theorem toNat_of_hi8_lo8 {a b : Byte} {v : Half} (ha : a = hi8 v) (hb : b = lo8 v) :
    256 * a.toNat + b.toNat = v.toNat := by
  rw [toNat_of_eq_hi8 ha, toNat_of_eq_lo8 hb, Nat.div_add_mod]

/-- SEG_LSE depends on the candidate set alone. -/
theorem lseContent_congr {r q : Regs} (h : candidate r = candidate q) : lseContent r = lseContent q := by
  obtain ⟨hmaxval, ht1, ht2, ht3, hreset⟩ := candidate_inj h
  rw [lseContent_eq, lseContent_eq, hmaxval, ht1, ht2, ht3, hreset]

/-- Settles O26: PC_ISVALID writes RESULT and CODE, the actions between keep the set, and SEG_LSE emits the bytes of the
set it finds. -/
theorem validatedSetIsTheSetEmitted : Obligations.ValidatedSetIsTheSetEmitted := by
  unfold Obligations.ValidatedSetIsTheSetEmitted
  refine ⟨fun s t h => ⟨?_, commandEffect_candidate (exec_cases h)⟩, fun s t a => step_keeps_candidate,
    fun s w hset => ?_⟩
  · cases (exec_pcIsValid_eq s).symm.trans h
    exact boolBit_eq_one _
  · obtain ⟨u, hexec, hframe, hlen, hread⟩ := exec_builds (i := .segLse) (s := w) rfl rfl (lseContent_length w.regs)
    simp only [builtContent, lseContent_congr hset, lseContent_eq] at hread
    exact ⟨u, hexec, hframe ▸ rfl, hframe ▸ rfl, hlen, hread rfl, toNat_of_hi8_lo8 (hread rfl) (hread rfl),
      toNat_of_hi8_lo8 (hread rfl) (hread rfl), toNat_of_hi8_lo8 (hread rfl) (hread rfl),
      toNat_of_hi8_lo8 (hread rfl) (hread rfl), toNat_of_hi8_lo8 (hread rfl) (hread rfl)⟩

end Sys2Proof.Machine
